-- ==== Sys2Proof/Word.lean ====
section
/-! DEFINITION. The word types of SMFE (spec/00_scope.md R18, R21): every value is an unsigned bit vector,
bit 0 least significant; a register is 32 bits wide; every buffer region is made of bytes. -/

namespace Sys2Proof

/-- A byte of a buffer region (R19). -/
abbrev Byte := BitVec 8

/-- A 32-bit register value, command word or bus datum (R18, R60, R80). -/
abbrev Word := BitVec 32

/-- A 16-byte block, byte 0 first (R11, R151). -/
abbrev Block := Vector Byte 16

end Sys2Proof
end

