-- ==== Sys2Proof/Syntax.lean ====
section
/-! DEFINITION. The syntax: SMFE's five commands (spec/30_encoding.md R81, spec/opcode_table.json), and the host
programs of R85 to R91 that drive it (their primitive statements, and the source lines with labels and
pseudo-instructions that expand to them). -/

namespace Sys2Proof

/-- The five legal commands of R81, one per row of spec/opcode_table.json. No command has an operand field (R82). -/
inductive Instr where
  /-- CLEAR, 0x00 (R100). -/
  | clear
  /-- FRAME, 0x01 (R140). -/
  | frame
  /-- SEAL, 0x02 (R150). -/
  | sealBlock
  /-- RENDER, 0x03 (R110). -/
  | render
  /-- ENCODE, 0x04 (R120). -/
  | encode
deriving DecidableEq, Repr

/-- The buffer regions of the window (R40 to R46). -/
inductive Region where
  | opcodeBuf
  | argsBuf
  | blockIn
  | blockOut
  | textBuf
  | pix
  | colorBuf
deriving DecidableEq, Repr

/-- The three colour registers (R34), the operands of the pseudo-instruction COLOR (R90). -/
inductive ColorReg where
  | fg
  | bg
  | deco
deriving DecidableEq, Repr

/-- One step of the host agent (R6, R85): a bus access, host control flow, a host assertion, or a pulse of the reset
input. Offsets are byte offsets in the window; variables are numbered; a branch names the index of a statement. -/
inductive HostStmt where
  /-- A bus write of `v`, `width` bits wide, at offset `off`. `WR off, v` of R85 is the case `width = 32`; the other widths
  are there so that R62 can be stated. -/
  | write (width off : Nat) (v : Word)
  /-- A bus read, `width` bits wide, at offset `off`, into variable `x` (`RD off -> x` is the case `width = 32`). -/
  | read (width off x : Nat)
  /-- `BNZ x, mask, target`. -/
  | bnz (x : Nat) (mask : Word) (target : Nat)
  /-- `CHECK x, mask, value`. -/
  | check (x : Nat) (mask value : Word)
  /-- The platform asserts `rst` and releases it (R180). Not a statement of R85: the reset input needs a moment in the
  schedule, and this is it (DESIGN CHOICE, assumption 14). -/
  | pulseRst
deriving DecidableEq, Repr

/-- One line of a host program's source (R85 to R91). -/
inductive Line where
  /-- `name:` (R85); names are numbers. -/
  | label (name : Nat)
  /-- `WR off, v` (R85). -/
  | wr (off : Nat) (v : Word)
  /-- `RD off -> x` (R85). -/
  | rd (off x : Nat)
  /-- `BNZ x, mask, name` (R85). -/
  | bnz (x : Nat) (mask : Word) (name : Nat)
  /-- `CHECK x, mask, value` (R85). -/
  | check (x : Nat) (mask value : Word)
  /-- `CMD <mnemonic>` (R86). -/
  | cmd (i : Instr)
  /-- `CMD <imm32>` (R86). -/
  | cmdWord (v : Word)
  /-- `WAIT` (R87). -/
  | wait
  /-- `RUN <mnemonic>` (R88). -/
  | run (i : Instr)
  /-- `RUN <imm32>` (R88). -/
  | runWord (v : Word)
  /-- `WRBYTES <region>, b0, …` (R89). -/
  | wrbytes (region : Region) (bytes : List Byte)
  /-- `COLOR <reg>, r, g, b` (R90). -/
  | color (reg : ColorReg) (r g b : Byte)
  /-- `TEXT "s"` (R91), the string as its bytes. -/
  | text (bytes : List Byte)
  /-- `FRAMEOP "op", a0, …` (R91), the string as its bytes. -/
  | frameop (op args : List Byte)
  /-- `SCHEMESET style, sep` (R91). -/
  | schemeset (style sep : Word)
deriving DecidableEq, Repr

end Sys2Proof
end

