-- ==== Sys2Proof/Decode.lean ====
section
/-! DEFINITION. The command word (spec/30_encoding.md R80 to R84): the decoder, total on every 32-bit word and rejecting by
name, and the encoder of R81 and R86. -/

namespace Sys2Proof

/-- Why a command word is illegal (R83). -/
inductive IllegalWord where
  /-- RSVD, bits 31:8, is not 0. -/
  | reservedNotZero
  /-- RSVD is 0 and OP is 0x05 or more. -/
  | opcodeUnassigned
deriving DecidableEq, Repr

/-- What a command word selects (R84). -/
inductive Decoded where
  | legal (i : Instr)
  | illegal (why : IllegalWord)
deriving DecidableEq, Repr

/-- The OP field, bits 7:0 (R80). -/
def opField (v : Word) : Byte := v.extractLsb' 0 8

/-- The RSVD field, bits 31:8 (R80). -/
def rsvdField (v : Word) : BitVec 24 := v.extractLsb' 8 24

/-- R84: the decoder. -/
def decode (v : Word) : Decoded :=
  if rsvdField v ≠ 0#24 then .illegal .reservedNotZero
  else if opField v = 0x00#8 then .legal .clear
  else if opField v = 0x01#8 then .legal .frame
  else if opField v = 0x02#8 then .legal .sealBlock
  else if opField v = 0x03#8 then .legal .render
  else if opField v = 0x04#8 then .legal .encode
  else .illegal .opcodeUnassigned

/-- R81: the opcode number of a command. -/
def opcode : Instr → Byte
  | .clear     => 0x00#8
  | .frame     => 0x01#8
  | .sealBlock => 0x02#8
  | .render    => 0x03#8
  | .encode    => 0x04#8

/-- R81: each legal command has exactly one encoding, `zext_32(OP)`. -/
def encode (i : Instr) : Word := (opcode i).setWidth 32

/-- The command the decoder selects, when the word is legal. -/
def Decoded.instr? : Decoded → Option Instr
  | .legal i   => some i
  | .illegal _ => none

/-- The command word of an instruction given by its table bits: SMFE's commands are one 32-bit word (R80), bit 0 least
significant; the bits above `nbits` are 0. -/
def tableWord (nbits w : Nat) : Word := BitVec.ofNat 32 (w % 2 ^ nbits)

/-- The command the decoder reads from an instruction whose bits are `w`. -/
def decodeTableWord (nbits w : Nat) : Option Instr := (decode (tableWord nbits w)).instr?

end Sys2Proof
end

