-- ==== Sys2Proof/Config.lean ====
section
/-! DEFINITION. The implementation parameters of SMFE (spec/00_scope.md section 3, R7 to R16; 92_eei_decisions.md
"OPEN parameters"), and the free values of the model. A value of `Config` is one admitted configuration: each
constraint of the spec is built into the field's type, so that every admitted configuration is a `Config` and
every `Config` is admitted. `Config.device` is the device's own configuration: it has no body, so nothing can be
proved of it but what holds of every admitted configuration. -/

namespace Sys2Proof

/-- R12: the order of pixels in the colour buffer. -/
inductive ScanOrder where
  | colMajor
  | rowMajor
deriving DecidableEq, Repr, Inhabited

/-- R180, `RST_KIND`: whether the reset input is sampled by the clock, and its active level. No rule depends on it. -/
structure RstKind where
  synchronous : Bool
  activeHigh  : Bool
deriving DecidableEq, Repr, Inhabited

/-- R11: `KEY_BITS`, `KEY` and `CIPHER`. `CIPHER(KEY, ·)` is a bijection on 16-byte blocks (`atKey`); of every other key the
spec assumes nothing (`atOtherKeys`). -/
structure CipherConfig where
  keyBits     : Nat
  key         : BitVec keyBits
  atKey       : Equiv.Perm Block
  atOtherKeys : BitVec keyBits → Block → Block
deriving Inhabited

/-- R11: the total function `CIPHER : Key → Block16 → Block16`. -/
def CipherConfig.cipher (c : CipherConfig) (k : BitVec c.keyBits) (b : Block) : Block :=
  if k = c.key then c.atKey b else c.atOtherKeys k b

/-- The OPEN parameters that rules read. The `…Pred` fields hold the parameter less one, so that the constraints
1 ≤ ROWS ≤ 32, 1 ≤ GW ≤ 63, 1 ≤ MAX_COLS ≤ 256, DOT_N ≥ 1 and BLOCK_W ≥ 1 hold of every value. -/
structure Config where
  /-- ROWS less one (R7). -/
  rowsPred    : Fin 32
  /-- GW less one (R8). -/
  gwPred      : Fin 63
  /-- GLYPH (R9): a partial function from character codes to GW column words of ROWS bits. -/
  glyph       : Byte → Option (Vector (BitVec (rowsPred.val + 1)) (gwPred.val + 1))
  /-- MAX_COLS less one (R10). -/
  maxColsPred : Fin 256
  /-- CIPHER, KEY and KEY_BITS (R11). -/
  cipherKey   : CipherConfig
  /-- SCAN_ORDER (R12). -/
  scanOrder   : ScanOrder
  /-- DOT_N less one (R13). -/
  dotPred     : Nat
  /-- BLOCK_W less one (R14). -/
  blockPred   : Nat
  /-- WAVE_ROW (R15): from column index and matrix width to a row in 0..ROWS-1. -/
  waveRow     : Nat → Nat → Fin (rowsPred.val + 1)
  /-- SMFE_BASE divided by 65536 (R54, R76). -/
  basePage    : Nat
  /-- RST_KIND (R180). -/
  rstKind     : RstKind
deriving Inhabited

/-- R7. -/
def Config.rows (p : Config) : Nat := p.rowsPred.val + 1
/-- R8. -/
def Config.gw (p : Config) : Nat := p.gwPred.val + 1
/-- R10. -/
def Config.maxCols (p : Config) : Nat := p.maxColsPred.val + 1
/-- R13. -/
def Config.dotN (p : Config) : Nat := p.dotPred + 1
/-- R14. -/
def Config.blockW (p : Config) : Nat := p.blockPred + 1
/-- R54, R76: the window's base in the host's address map, a multiple of 65536. -/
def Config.smfeBase (p : Config) : Nat := 65536 * p.basePage

/-- The device's configuration. OPEN: no value is given (R7 to R15, R54, R180), so it has no body (assumption 11). -/
opaque Config.device : Config

/-- R16, `LAT` and `INIT_LAT`: the n-th latency drawn, less one. Each command and each initialisation draws its own; any
natural number is possible, so every fair schedule is admitted. A free value: no body (DESIGN CHOICE, assumption 1). -/
opaque Config.latency : Nat → Nat

/-- R69: the n-th byte drawn for a read whose value is unspecified. A free value: no body (DESIGN CHOICE, assumption 2). -/
opaque Config.freeByte : Nat → Byte

end Sys2Proof
end

