-- ==== Sys2Proof/Machine/State.lean ====
section
/-! DEFINITION. The state of SMFE (spec/10_state.md) and of the host that drives it (spec/00_scope.md R6), the reasons a step
can stop, and the state right after reset (R55). Registers are stored as their fields, at the fields' widths: the reserved
bits read as zero and drop what is written (20_memory.md R65), so they are no storage. ID, PARAM, STATUS.BUSY, STATUS.INIT
and `irq` are views of what is stored here (Machine/Flags.lean). -/

namespace Sys2Proof.Machine

/-- R21, R34: a colour, its red, green and blue bytes. -/
structure Colour where
  r : Byte
  g : Byte
  b : Byte
deriving DecidableEq, Repr

/-- R96: the command an accepted word runs. CLEAR is none of them: it never makes the engine busy (R95, R100). -/
inductive Running where
  | frame
  | sealBlock
  | render
  | encode
  /-- An accepted illegal word (R101). -/
  | illegal
deriving DecidableEq, Repr

/-- R47: the engine phase. -/
inductive Phase where
  /-- Reset initialisation in progress (R181). -/
  | init
  | idle
  | busy (d : Running)
deriving DecidableEq, Repr

/-- The stored fields of STATUS (R27, R29 to R31, R33). BUSY and INIT are views of the phase (R28, R32). -/
structure Status where
  done    : Bool
  err     : Bool
  busyWr  : Bool
  errCode : Byte
  lastOp  : Byte
deriving DecidableEq, Repr

/-- The bytes of the register window's regions (R40 to R46): pairs of window offset and byte, in the canonical form of
`Table.Wf`. An unlisted offset reads 0x00. -/
abbrev Memory := List Host.Cell

/-- The host agent (R6, R85): its program, the index of its next statement, and its variables (a variable not listed is 0). -/
structure HostAgent where
  prog : List HostStmt
  pc   : Nat
  vars : List (Nat × Word)
deriving DecidableEq, Repr

/-- Everything the machine holds between two steps. -/
structure State where
  /-- CTRL.IRQ_EN (R25). -/
  irqEn     : Bool
  /-- STATUS, its stored fields (R27). -/
  status    : Status
  /-- FG_COLOR (R34). -/
  fgColor   : Colour
  /-- BG_COLOR (R34). -/
  bgColor   : Colour
  /-- DECO_COLOR (R34). -/
  decoColor : Colour
  /-- SCHEME.STYLE (R35): any 3-bit value is stored. -/
  style     : BitVec 3
  /-- SCHEME.SEP (R35). -/
  sep       : Bool
  /-- FRAME_CFG.OP_LEN (R36). -/
  opLen     : BitVec 5
  /-- FRAME_CFG.ARG_LEN (R36). -/
  argLen    : BitVec 5
  /-- TEXT_LEN.N (R37). -/
  textLen   : BitVec 8
  /-- PIX_COLS.W (R38). -/
  pixCols   : BitVec 9
  /-- COLOR_LEN.LEN (R39). -/
  colorLen  : BitVec 16
  /-- The regions OPCODE_BUF, ARGS_BUF, BLOCK_IN, BLOCK_OUT, TEXT_BUF, PIX and COLOR_BUF (R40 to R46). -/
  mem       : Memory
  /-- The engine phase (R47). -/
  phase     : Phase
  /-- The model's own: how many steps the host still takes before the engine's completion (or INIT-end) step, when the
  phase is not IDLE: the rest of LAT or INIT_LAT (R16, R99, R181). DESIGN CHOICE, assumptions 1 and 3. -/
  wait      : Nat
  /-- The model's own: how many free values have been drawn (`Config.latency`, `Config.freeByte`). DESIGN CHOICE,
  assumption 2. -/
  draws     : Nat
  /-- The host agent (R6). DESIGN CHOICE at reset, assumption 5. -/
  host      : HostAgent
deriving DecidableEq, Repr

/-- Why the machine stops with a fault. SMFE itself never does: a failed command is a normal completion (R164, R176). -/
inductive Fault where
  /-- Raised by the host's CHECK statement at index `pc`, when the assertion it makes does not hold (R85: "host assertion";
  DESIGN CHOICE, assumption 8).
  Safe: the run stops, and no claim about later states can be made from it. -/
  | hostCheckFailed (pc : Nat)
deriving DecidableEq, Repr

/-- Why the model refuses a step. -/
inductive Refusal where
  /-- An instruction the model gives no meaning to. No arm raises it: every command has its meaning. Safe. -/
  | notModelled (mnemonic : String)
  /-- Raised by a host access of a width other than 32 bits (R62, R176: "the model refuses the access"). Safe: what the host
  sees on a bus error belongs to the interconnect, and no SMFE state changes. -/
  | accessWidth (width off : Nat)
  /-- Raised by a host access at an offset that is not a multiple of 4 (R63, R176). Safe, as `accessWidth`. -/
  | misaligned (off : Nat)
  /-- Raised by a host access outside the 64 KiB window, which is no SMFE access (R54; 93_implementation_defined.md section 3).
  Safe: the access reaches some other device. -/
  | outsideWindow (off : Nat)
deriving DecidableEq, Repr

/-- The colour whose bytes are all 0, the reset value of the colour registers (R34). -/
def Colour.zero : Colour := { r := 0#8, g := 0#8, b := 0#8 }

/-- STATUS with every stored field 0 (R27, R55). -/
def Status.zero : Status := { done := false, err := false, busyWr := false, errCode := 0#8, lastOp := 0#8 }

/-- A host that has no program: it makes no access (assumption 5). -/
def HostAgent.none : HostAgent := { prog := [], pc := 0, vars := [] }

/-- R55, R180: the state right after reset. Every register is 0, the phase is INIT, and the first latency has been drawn.
The regions are unspecified until INIT ends (R55); nothing is listed, and no read shows it (R69; assumption 4). -/
def State.reset : State where
  irqEn     := false
  status    := Status.zero
  fgColor   := Colour.zero
  bgColor   := Colour.zero
  decoColor := Colour.zero
  style     := 0#3
  sep       := false
  opLen     := 0#5
  argLen    := 0#5
  textLen   := 0#8
  pixCols   := 0#9
  colorLen  := 0#16
  mem       := []
  phase     := .init
  wait      := Config.latency 0
  draws     := 1
  host      := HostAgent.none

end Sys2Proof.Machine
end

