-- ==== Sys2Proof/Machine/Flags.lean ====
section
/-! DEFINITION. The flags and register views (spec/10_state.md R23 to R39, R48): each register as the 32-bit word a host reads,
the error codes of spec/60_exceptions.md R160, and the interrupt output (R166). -/

namespace Sys2Proof.Machine

/-- R28: STATUS.BUSY is 1 exactly when the phase is not IDLE. -/
def State.busy (s : State) : Bool := s.phase ≠ .idle

/-- R32: STATUS.INIT is 1 exactly when the phase is INIT. -/
def State.initBit (s : State) : Bool := s.phase = .init

/-- R48, R166: the interrupt output. -/
def State.irq (s : State) : Bool := s.status.done && s.irqEn

/-- A field `v` placed with its bit 0 at bit `lo` of a register whose other bits are 0. -/
def fieldAt {w : Nat} (lo : Nat) (v : BitVec w) : Word := v.setWidth 32 <<< lo

/-- A one-bit field placed at bit `lo`. -/
def flagAt (lo : Nat) (b : Bool) : Word := fieldAt lo (BitVec.ofBool b)

/-- R27: the STATUS register. -/
def State.statusWord (s : State) : Word :=
  flagAt 0 s.busy ||| flagAt 1 s.status.done ||| flagAt 2 s.status.err ||| flagAt 3 s.status.busyWr ||| flagAt 4 s.initBit
    ||| fieldAt 8 s.status.errCode ||| fieldAt 16 s.status.lastOp

/-- R23: the ID register, the letters "SMF" and version 1. -/
def idWord : Word := 0x534D4601#32

/-- R24: the PARAM register. -/
def paramWord (p : Config) : Word :=
  fieldAt 0 (BitVec.ofNat 6 p.rows) ||| fieldAt 8 (BitVec.ofNat 6 p.gw) ||| fieldAt 16 (BitVec.ofNat 9 p.maxCols)

/-- R25: the CTRL register. -/
def State.ctrlWord (s : State) : Word := flagAt 0 s.irqEn

/-- R34: a colour register. -/
def Colour.toWord (c : Colour) : Word := fieldAt 0 c.r ||| fieldAt 8 c.g ||| fieldAt 16 c.b

/-- R34: the colour a 32-bit write stores; bits 31:24 are dropped. -/
def Colour.ofWord (v : Word) : Colour := { r := v.extractLsb' 0 8, g := v.extractLsb' 8 8, b := v.extractLsb' 16 8 }

/-- R35: the SCHEME register. -/
def State.schemeWord (s : State) : Word := fieldAt 0 s.style ||| flagAt 8 s.sep

/-- R36: the FRAME_CFG register. -/
def State.frameCfgWord (s : State) : Word := fieldAt 0 s.opLen ||| fieldAt 8 s.argLen

/-- R160: the causes a command can fail with. -/
inductive ErrorCode where
  | illegalCmd
  | frameOverflow
  | renderTooWide
  | renderTextLen
  | encodeBadCols
  | encodeBadStyle
deriving DecidableEq, Repr

/-- R160: the code STATUS.ERRCODE reports. -/
def ErrorCode.code : ErrorCode → Byte
  | .illegalCmd     => 0x01#8
  | .frameOverflow  => 0x02#8
  | .renderTooWide  => 0x03#8
  | .renderTextLen  => 0x04#8
  | .encodeBadCols  => 0x05#8
  | .encodeBadStyle => 0x06#8

end Sys2Proof.Machine
end

