-- ==== Sys2Proof/Machine/Memory.lean ====
section
/-! DEFINITION. Sparse tables in canonical form, and the memory of the register window as one of them: the read and the write of
one byte, of a little-endian word (spec/20_memory.md R64), and of runs of bytes and words. -/

namespace Sys2Proof.Machine

/-- The value a table holds for key `a`: 0 when `a` is not listed (for memory, R55: every byte is 0x00 after INIT). -/
def Table.read {w : Nat} : List (Nat × BitVec w) → Nat → BitVec w
  | [], _ => 0#w
  | (b, x) :: t, a => if a = b then x else Table.read t a

/-- The table with `a` holding `v`, every other key as before. It keeps the canonical form: a 0 is not listed. -/
def Table.write {w : Nat} : List (Nat × BitVec w) → Nat → BitVec w → List (Nat × BitVec w)
  | [], a, v => if v = 0#w then [] else [(a, v)]
  | (b, x) :: t, a, v =>
    if a < b then (if v = 0#w then (b, x) :: t else (a, v) :: (b, x) :: t)
    else if a = b then (if v = 0#w then t else (a, v) :: t)
    else (b, x) :: Table.write t a v

/-- The canonical form: keys strictly rising, and no entry that an unlisted key would read as. -/
abbrev Table.Wf {w : Nat} (t : List (Nat × BitVec w)) : Prop :=
  t.Pairwise (fun e f => e.1 < f.1) ∧ ∀ e ∈ t, e.2 ≠ 0#w

/-- The canonical form of the window's memory. -/
abbrev Memory.wf (m : Memory) : Prop := Table.Wf m

/-- The byte stored at window offset `a`. -/
def Memory.read (m : Memory) (a : Nat) : Byte := Table.read m a

/-- Memory with byte `b` stored at window offset `a`. -/
def Memory.write (m : Memory) (a : Nat) (b : Byte) : Memory := Table.write m a b

/-- Byte `j` of a word, bits 8j+7 down to 8j (R64). -/
def byteOf (v : Word) (j : Nat) : Byte := v.extractLsb' (8 * j) 8

/-- The word `{b3, b2, b1, b0}` (R64). -/
def wordOf (b0 b1 b2 b3 : Byte) : Word := b3 ++ b2 ++ b1 ++ b0

/-- Stores of single bytes, one after the other. -/
def Memory.writeCells (m : Memory) (cells : List Host.Cell) : Memory :=
  cells.foldl (fun m c => m.write c.1 c.2) m

/-- The stores of a byte sequence from offset `a` upward (R19). -/
def byteCells (a : Nat) : List Byte → List Host.Cell
  | []      => []
  | b :: bs => (a, b) :: byteCells (a + 1) bs

/-- The stores of one word at offset `a`, the byte at the lowest offset being bits 7:0 (R64). -/
def wordCells (a : Nat) (v : Word) : List Host.Cell :=
  byteCells a [byteOf v 0, byteOf v 1, byteOf v 2, byteOf v 3]

/-- The stores of a word sequence from offset `a` upward, four bytes a word. -/
def wordsCells (a : Nat) : List Word → List Host.Cell
  | []      => []
  | v :: vs => wordCells a v ++ wordsCells (a + 4) vs

/-- The little-endian word stored at offset `a` (R64). -/
def Memory.readWord (m : Memory) (a : Nat) : Word :=
  wordOf (m.read a) (m.read (a + 1)) (m.read (a + 2)) (m.read (a + 3))

/-- The byte of the register window's storage at offset `a`. -/
def State.byteAt (s : State) (a : Nat) : Byte := s.mem.read a

end Sys2Proof.Machine
end

