-- ==== Sys2Proof/Machine/Window.lean ====
section
/-! DEFINITION. The register window (spec/10_state.md R22, R54): the offsets of its registers and regions, what an offset
names, and the access rights of each. -/

namespace Sys2Proof.Machine

/-- R22: the byte offset at which a region begins. -/
def regionBase : Region → Nat
  | .opcodeBuf => 0x0040
  | .argsBuf   => 0x0050
  | .blockIn   => 0x0060
  | .blockOut  => 0x0070
  | .textBuf   => 0x0100
  | .pix       => 0x0400
  | .colorBuf  => 0x8000

/-- R22: the bytes a region takes in the window. -/
def regionSize : Region → Nat
  | .opcodeBuf => 16
  | .argsBuf   => 16
  | .blockIn   => 16
  | .blockOut  => 16
  | .textBuf   => 64
  | .pix       => 1024
  | .colorBuf  => 32768

/-- R34: the offset of a colour register. -/
def colorRegOffset : ColorReg → Nat
  | .fg   => 0x0020
  | .bg   => 0x0024
  | .deco => 0x0028

/-- R26: the offset of CMD. -/
def cmdOffset : Nat := 0x000C
/-- R27: the offset of STATUS. -/
def statusOffset : Nat := 0x0010
/-- R35: the offset of SCHEME. -/
def schemeOffset : Nat := 0x002C
/-- R36: the offset of FRAME_CFG. -/
def frameCfgOffset : Nat := 0x0030
/-- R37: the offset of TEXT_LEN. -/
def textLenOffset : Nat := 0x0034

/-- What a word-aligned offset of the window names (R22): a register; byte `i` of a region and the three after it; column word
`c` of PIX; or nothing (reserved). -/
inductive Target where
  | id
  | param
  | ctrl
  | cmd
  | status
  | color (reg : ColorReg)
  | scheme
  | frameCfg
  | textLen
  | pixCols
  | colorLen
  | opcodeBuf (i : Nat)
  | argsBuf (i : Nat)
  | blockIn (i : Nat)
  | blockOut (i : Nat)
  | textBuf (i : Nat)
  | pix (c : Nat)
  | colorBuf (i : Nat)
  | reserved
deriving DecidableEq, Repr

/-- R22: the register at an offset below 0x0040. -/
def registerAt (off : Nat) : Target :=
  if off = 0x0000 then .id
  else if off = 0x0004 then .param
  else if off = 0x0008 then .ctrl
  else if off = 0x000C then .cmd
  else if off = 0x0010 then .status
  else if off = 0x0020 then .color .fg
  else if off = 0x0024 then .color .bg
  else if off = 0x0028 then .color .deco
  else if off = 0x002C then .scheme
  else if off = 0x0030 then .frameCfg
  else if off = 0x0034 then .textLen
  else if off = 0x0038 then .pixCols
  else if off = 0x003C then .colorLen
  else .reserved

/-- R22: what the word at a word-aligned offset of the window is. -/
def target (off : Nat) : Target :=
  if off < 0x0040 then registerAt off
  else if off < 0x0050 then .opcodeBuf (off - 0x0040)
  else if off < 0x0060 then .argsBuf (off - 0x0050)
  else if off < 0x0070 then .blockIn (off - 0x0060)
  else if off < 0x0080 then .blockOut (off - 0x0070)
  else if off < 0x0100 then .reserved
  else if off < 0x0140 then .textBuf (off - 0x0100)
  else if off < 0x0400 then .reserved
  else if off < 0x0800 then .pix ((off - 0x0400) / 4)
  else if off < 0x8000 then .reserved
  else if off < 0x10000 then .colorBuf (off - 0x8000)
  else .reserved

/-- R22: the access column of the register map. -/
inductive Access where
  | readOnly
  | readWrite
  | writeOnly
  | reserved
deriving DecidableEq, Repr

/-- R22: the access rights of what an offset names. -/
def Target.access : Target → Access
  | .id | .param | .status | .colorLen | .blockOut _ | .colorBuf _ => .readOnly
  | .cmd => .writeOnly
  | .reserved => .reserved
  | .ctrl | .color _ | .scheme | .frameCfg | .textLen | .pixCols => .readWrite
  | .opcodeBuf _ | .argsBuf _ | .blockIn _ | .textBuf _ | .pix _ => .readWrite

/-- Whether an offset names a word of a region (R40 to R46), not a register. -/
def Target.isRegion : Target → Bool
  | .opcodeBuf _ | .argsBuf _ | .blockIn _ | .blockOut _ | .textBuf _ | .pix _ | .colorBuf _ => true
  | .id | .param | .ctrl | .cmd | .status | .color _ | .scheme | .frameCfg | .textLen | .pixCols | .colorLen => false
  | .reserved => false

/-- R62, R63, R54: why a host access of this width at this offset is no SMFE access, if it is none. -/
def accessError (width off : Nat) : Option Refusal :=
  if width ≠ 32 then some (.accessWidth width off)
  else if off % 4 ≠ 0 then some (.misaligned off)
  else if 0x10000 ≤ off then some (.outsideWindow off)
  else none

/-- R54, R76: the host address of window offset `off`. -/
def hostAddress (p : Config) (off : Nat) : Nat := p.smfeBase + off

/-- R54: the window offset that a host address reaches, if it lies in the window. -/
def windowOffset (p : Config) (addr : Nat) : Option Nat :=
  if p.smfeBase ≤ addr ∧ addr < p.smfeBase + 0x10000 then some (addr - p.smfeBase) else none

end Sys2Proof.Machine
end

