-- ==== Sys2Proof/Machine/Operands.lean ====
section
/-! DEFINITION. The operands of the commands (spec/30_encoding.md R82): every one is a fixed register field or region, unsigned
and at its stored width. -/

namespace Sys2Proof.Machine

/-- R36: FRAME's count of opcode bytes, L_op. -/
def State.opCount (s : State) : Nat := s.opLen.toNat

/-- R36: FRAME's count of argument bytes, L_arg. -/
def State.argCount (s : State) : Nat := s.argLen.toNat

/-- R40: byte `i` of OPCODE_BUF. -/
def State.opcodeByte (s : State) (i : Nat) : Byte := s.byteAt (regionBase .opcodeBuf + i)

/-- R41: byte `i` of ARGS_BUF. -/
def State.argByte (s : State) (i : Nat) : Byte := s.byteAt (regionBase .argsBuf + i)

/-- R42, R151: BLOCK_IN as a 16-byte block, byte 0 first. -/
def State.blockIn (s : State) : Block := Vector.ofFn (fun i : Fin 16 => s.byteAt (regionBase .blockIn + i.val))

/-- R43: BLOCK_OUT as a 16-byte block, byte 0 first. -/
def State.blockOut (s : State) : Block := Vector.ofFn (fun i : Fin 16 => s.byteAt (regionBase .blockOut + i.val))

/-- R37: RENDER's count of characters, N. -/
def State.textCount (s : State) : Nat := s.textLen.toNat

/-- R44: the character code `i` of TEXT_BUF. -/
def State.textByte (s : State) (i : Nat) : Byte := s.byteAt (regionBase .textBuf + i)

/-- R38: the width W of the pixel matrix. -/
def State.width (s : State) : Nat := s.pixCols.toNat

/-- R45: the word with bits ROWS-1 down to 0 set, the bits of a column word that are stored. -/
def rowMask (p : Config) : Word := BitVec.ofNat 32 (2 ^ p.rows - 1)

/-- The offset of column word `c` of PIX (R45). -/
def pixOffset (c : Nat) : Nat := regionBase .pix + 4 * c

/-- R45: the column word of column `c`: bits 31:ROWS read 0, and so does a word at or beyond MAX_COLS. -/
def State.pixColumn (p : Config) (s : State) (c : Nat) : Word :=
  if c < p.maxCols then s.mem.readWord (pixOffset c) &&& rowMask p else 0#32

/-- R20, R45: `PIX[c][r]`, the pixel of column `c`, row `r`. -/
def State.pixel (p : Config) (s : State) (c r : Nat) : Bool := (s.pixColumn p c).getLsbD r

/-- R46: the number of bytes of COLOR_BUF that are stored. -/
def colorCapacity (p : Config) : Nat := 3 * p.maxCols * p.rows

/-- R46: byte `k` of COLOR_BUF as a host reads it: RAZ at and beyond 3·MAX_COLS·ROWS. -/
def State.colorByte (p : Config) (s : State) (k : Nat) : Byte :=
  if k < colorCapacity p then s.byteAt (regionBase .colorBuf + k) else 0#8

end Sys2Proof.Machine
end

