-- ==== Sys2Proof/Machine/Ops.lean ====
section
/-! DEFINITION. The operations the commands and the bus share: the events of a command's life (spec/40_command_cycle.md R96, R97,
R98), the report of an error (which takes no trap: spec/60_exceptions.md R164), its acknowledgement (R100), reset and the end
of the reset initialisation (spec/70_reset_and_hazards.md R180, R181). -/

namespace Sys2Proof.Machine

/-- The outcome of every meaning and step. -/
abbrev Result := Host.Outcome State Fault Refusal

/-- R96: the acceptance of command word `v`, decoded to `d`. The command's latency is drawn here (R16). -/
def accept (v : Word) (d : Running) (s : State) : State :=
  { s with
    status := { s.status with done := false, err := false, errCode := 0#8, lastOp := opField v }
    phase  := .busy d
    wait   := Config.latency s.draws
    draws  := s.draws + 1 }

/-- R97: the successful completion of the running command, once its outputs are written. -/
def complete (s : State) : State :=
  { s with
    status := { s.status with err := false, errCode := 0#8, done := true }
    phase  := .idle }

/-- R98: the failed completion with error `e`: no output is written, and nothing but STATUS and the phase changes. This is what
an exception is on SMFE: it takes no trap, saves no state and goes to no vector (R164). -/
def raiseError (e : ErrorCode) (s : State) : State :=
  { s with
    status := { s.status with err := true, errCode := e.code, done := true }
    phase  := .idle }

/-- R100: the acknowledgement of an outcome, which SMFE has in the place of a trap return (R165). -/
def clearStatus (s : State) : State := { s with status := Status.zero }

/-- R180: reset. Every register takes its reset value, a running command is abandoned, and the phase is INIT. The regions are
unspecified until INIT ends (R55): the model leaves their bytes as they are, and no read shows them (R69). The configuration
and the host are no part of what reset changes. -/
def assertReset (s : State) : State :=
  { State.reset with
    mem   := s.mem
    wait  := Config.latency s.draws
    draws := s.draws + 1
    host  := s.host }

/-- R181: the end of INIT. Every region is cleared and the phase is IDLE; BUSYWR stays as host writes during INIT set it. -/
def endInit (s : State) : State :=
  { s with
    status := { Status.zero with busyWr := s.status.busyWr }
    mem    := []
    phase  := .idle }

/-- R96: what a legal command runs as once accepted. CLEAR is never accepted as a running command (R95). -/
def runningOf : Instr → Option Running
  | .clear     => none
  | .frame     => some .frame
  | .sealBlock => some .sealBlock
  | .render    => some .render
  | .encode    => some .encode

/-- The command whose meaning the completion of `d` is; none for an illegal word (R101). -/
def Running.instr? : Running → Option Instr
  | .frame     => some .frame
  | .sealBlock => some .sealBlock
  | .render    => some .render
  | .encode    => some .encode
  | .illegal   => none

end Sys2Proof.Machine
end

