-- ==== Sys2Proof/Machine/Clear.lean ====
section
/-! DEFINITION. CLEAR (spec/40_command_cycle.md R100). -/

namespace Sys2Proof.Machine

/-- R100: acknowledge status. It takes effect in the step of the host write, only while the phase is IDLE (`issue`). -/
def execClear (s : State) : Result := .next (clearStatus s)

end Sys2Proof.Machine
end

