-- ==== Sys2Proof/Machine/Encode.lean ====
section
/-! DEFINITION. ENCODE, the RGB colour encoder (spec/42_encode.md). -/

namespace Sys2Proof.Machine

/-- R35, R129: the decoration styles. -/
inductive Style where
  | plain
  | lines
  | dots
  | blocks
  | waves
deriving DecidableEq, Repr

/-- R35: the style a value of SCHEME.STYLE stands for; 5, 6 and 7 are reserved. -/
def Style.ofField (v : BitVec 3) : Option Style :=
  if v = 0#3 then some .plain
  else if v = 1#3 then some .lines
  else if v = 2#3 then some .dots
  else if v = 3#3 then some .blocks
  else if v = 4#3 then some .waves
  else none

/-- R129: whether pixel (c, r) of a matrix of width `w` lies in the decoration region of the style. -/
def deco (p : Config) : Style → (c r w : Nat) → Bool
  | .plain,  _, _, _ => false                                                        -- R130
  | .lines,  _, r, _ => r = 0 || r = p.rows - 1                                      -- R131
  | .dots,   c, r, _ => (r = 0 || r = p.rows - 1) && c % p.dotN = 0                  -- R132
  | .blocks, c, _, _ => c / p.blockW % 2 = 0                                         -- R133
  | .waves,  c, r, w => r = (p.waveRow c w).val                                      -- R134

/-- R126: the colour of pixel (c, r). -/
def colorOf (p : Config) (s : State) (st : Style) (c r : Nat) : Colour :=
  match s.pixel p c r, s.sep && deco p st c r s.width with
  | false, _     => s.bgColor
  | true,  true  => s.decoColor
  | true,  false => s.fgColor

/-- R123: the index of pixel (c, r) in the colour buffer of a matrix of width `w`. -/
def pixelIndex (p : Config) (c r w : Nat) : Nat :=
  match p.scanOrder with
  | .colMajor => c * p.rows + r
  | .rowMajor => r * w + c

/-- R122: the three bytes of one pixel's triple, as stores to COLOR_BUF. -/
def pixelCells (k : Nat) (col : Colour) : List Host.Cell :=
  byteCells (regionBase .colorBuf + 3 * k) [col.r, col.g, col.b]

/-- R120: the stores of ENCODE, column by column and row by row. -/
def encodeCells (p : Config) (s : State) (st : Style) : List Host.Cell :=
  (List.range s.width).flatMap fun c =>
    (List.range p.rows).flatMap fun r =>
      pixelCells (pixelIndex p c r s.width) (colorOf p s st c r)

/-- R120: ENCODE at its completion, on configuration `p`: the checks of R121 in their order, then the colour buffer and
COLOR_LEN (R124, R125). -/
def encodeOn (p : Config) (s : State) : State :=
  if s.width > p.maxCols then raiseError .encodeBadCols s
  else match Style.ofField s.style with
    | none    => raiseError .encodeBadStyle s
    | some st => complete { s with
        mem      := s.mem.writeCells (encodeCells p s st)
        colorLen := BitVec.ofNat 16 (3 * s.width * p.rows) }

/-- R120: ENCODE. -/
def execEncode (s : State) : Result := .next (encodeOn Config.device s)

end Sys2Proof.Machine
end

