-- ==== Sys2Proof/Machine/Frame.lean ====
section
/-! DEFINITION. FRAME, the command frame builder (spec/43_frame.md). -/

namespace Sys2Proof.Machine

/-- R142 to R145: the frame's bytes: the length byte, the opcode bytes, the argument bytes, and zero padding. -/
def frameBytes (s : State) : List Byte :=
  [BitVec.ofNat 8 (s.opCount + s.argCount)]
    ++ (List.range s.opCount).map s.opcodeByte
    ++ (List.range s.argCount).map s.argByte
    ++ List.replicate (15 - (s.opCount + s.argCount)) 0#8

/-- R140: FRAME at its completion: the overflow check of R141, then the 16 bytes of BLOCK_IN (R146). -/
def execFrame (s : State) : Result :=
  if 1 + s.opCount + s.argCount > 16 then .next (raiseError .frameOverflow s)
  else .next (complete { s with mem := s.mem.writeCells (byteCells (regionBase .blockIn) (frameBytes s)) })

end Sys2Proof.Machine
end

