-- ==== Sys2Proof/Machine/Render.lean ====
section
/-! DEFINITION. RENDER, the bitmap text rasterizer (spec/41_render.md). -/

namespace Sys2Proof.Machine

/-- R112: the column count of a text of `n` characters. -/
def columnCount (p : Config) (n : Nat) : Nat := if n = 0 then 0 else n * p.gw + (n - 1)

/-- R114, R117: the column words of a character's glyph; a code with no entry is GW blank columns. -/
def glyphColumns (p : Config) (code : Byte) : List Word :=
  match p.glyph code with
  | some g => g.toList.map (fun col => col.setWidth 32)
  | none   => List.replicate p.gw 0#32

/-- R110, R115: the columns of the character codes, left to right, one blank column between neighbours. -/
def textColumns (p : Config) : List Byte → List Word
  | []          => []
  | [c]         => glyphColumns p c
  | c :: d :: t => glyphColumns p c ++ [0#32] ++ textColumns p (d :: t)

/-- R44: the character codes RENDER reads. -/
def State.textCodes (s : State) : List Byte := (List.range s.textCount).map s.textByte

/-- R110: RENDER at its completion, on configuration `p`: the length check of R111, the width check of R116, then columns
0 to cols-1 of PIX and PIX_COLS (R113). -/
def renderOn (p : Config) (s : State) : State :=
  if s.textCount > 64 then raiseError .renderTextLen s
  else if columnCount p s.textCount > p.maxCols then raiseError .renderTooWide s
  else complete { s with
    mem     := s.mem.writeCells (wordsCells (regionBase .pix) (textColumns p s.textCodes))
    pixCols := BitVec.ofNat 9 (columnCount p s.textCount) }

/-- R110: RENDER. -/
def execRender (s : State) : Result := .next (renderOn Config.device s)

end Sys2Proof.Machine
end

