-- ==== Sys2Proof/Machine/Seal.lean ====
section
/-! DEFINITION. SEAL, the block-cipher encryptor (spec/44_cipher.md). -/

namespace Sys2Proof.Machine

/-- R150, R154: `CIPHER(KEY, ·)`. -/
def sealedBlock (p : Config) (b : Block) : Block := p.cipherKey.cipher p.cipherKey.key b

/-- R150: SEAL at its completion, on configuration `p`. -/
def sealOn (p : Config) (s : State) : State :=
  complete { s with mem := s.mem.writeCells (byteCells (regionBase .blockOut) (sealedBlock p s.blockIn).toList) }

/-- R150: SEAL. It never fails (R155). -/
def execSeal (s : State) : Result := .next (sealOn Config.device s)

end Sys2Proof.Machine
end

