-- ==== Sys2Proof/Machine/Dispatch.lean ====
section
/-! DEFINITION. The meaning of each command (spec/30_encoding.md R81): CLEAR in the step of the host write (R100), the others in
their completion step (R97, R98), whose operands are those at acceptance (R97). One arm per row of spec/opcode_table.json. -/

namespace Sys2Proof.Machine

/-- The effect of a command: CLEAR's own (R100); for the others the atomic completion step (R97, R98). The acceptance that
comes before it is `accept` (R96). -/
def exec (i : Instr) (s : State) : Host.Outcome State Fault Refusal :=
  match i with
  | .clear => Sys2Proof.Machine.execClear s
  | .frame => Sys2Proof.Machine.execFrame s
  | .sealBlock => Sys2Proof.Machine.execSeal s
  | .render => Sys2Proof.Machine.execRender s
  | .encode => Sys2Proof.Machine.execEncode s

end Sys2Proof.Machine
end

