-- ==== Sys2Proof/Machine/Bus.lean ====
section
/-! DEFINITION. The host's bus accesses (spec/20_memory.md R60, R61, R68, R69) and the issue of a command by a write to CMD
(spec/40_command_cycle.md R95). -/

namespace Sys2Proof.Machine

/-- R95: the issue of word `v` while the phase is IDLE. CLEAR takes effect at once; any other word is accepted. -/
def issue (v : Word) (s : State) : Result :=
  match decode v with
  | .illegal _ => .next (accept v .illegal s)
  | .legal i   =>
    match runningOf i with
    | none   => exec i s
    | some d => .next (accept v d s)

/-- R60: the value stored at a word-aligned offset. -/
def memRead (p : Config) (s : State) (off : Nat) : Word :=
  match target off with
  | .id          => idWord
  | .param       => paramWord p
  | .ctrl        => s.ctrlWord
  | .cmd         => 0#32
  | .status      => s.statusWord
  | .color .fg   => s.fgColor.toWord
  | .color .bg   => s.bgColor.toWord
  | .color .deco => s.decoColor.toWord
  | .scheme      => s.schemeWord
  | .frameCfg    => s.frameCfgWord
  | .textLen     => fieldAt 0 s.textLen
  | .pixCols     => fieldAt 0 s.pixCols
  | .colorLen    => fieldAt 0 s.colorLen
  | .opcodeBuf i => s.mem.readWord (regionBase .opcodeBuf + i)
  | .argsBuf i   => s.mem.readWord (regionBase .argsBuf + i)
  | .blockIn i   => s.mem.readWord (regionBase .blockIn + i)
  | .blockOut i  => s.mem.readWord (regionBase .blockOut + i)
  | .textBuf i   => s.mem.readWord (regionBase .textBuf + i)
  | .pix c       => s.pixColumn p c
  | .colorBuf i  => wordOf (s.colorByte p i) (s.colorByte p (i + 1)) (s.colorByte p (i + 2)) (s.colorByte p (i + 3))
  | .reserved    => 0#32

/-- R61: the state after a write of `v` to `t`, anything but CMD, while the phase is IDLE. Read-only and reserved targets keep
what they hold (R65, R66). -/
def memWrite (p : Config) (t : Target) (v : Word) (s : State) : State :=
  match t with
  | .ctrl        => { s with irqEn := v.getLsbD 0 }
  | .color .fg   => { s with fgColor := Colour.ofWord v }
  | .color .bg   => { s with bgColor := Colour.ofWord v }
  | .color .deco => { s with decoColor := Colour.ofWord v }
  | .scheme      => { s with style := v.extractLsb' 0 3, sep := v.getLsbD 8 }
  | .frameCfg    => { s with opLen := v.extractLsb' 0 5, argLen := v.extractLsb' 8 5 }
  | .textLen     => { s with textLen := v.extractLsb' 0 8 }
  | .pixCols     => { s with pixCols := v.extractLsb' 0 9 }
  | .opcodeBuf i => { s with mem := s.mem.writeCells (wordCells (regionBase .opcodeBuf + i) v) }
  | .argsBuf i   => { s with mem := s.mem.writeCells (wordCells (regionBase .argsBuf + i) v) }
  | .blockIn i   => { s with mem := s.mem.writeCells (wordCells (regionBase .blockIn + i) v) }
  | .textBuf i   => { s with mem := s.mem.writeCells (wordCells (regionBase .textBuf + i) v) }
  | .pix c       =>
    if c < p.maxCols then { s with mem := s.mem.writeCells (wordCells (pixOffset c) (v &&& rowMask p)) } else s
  | .id | .param | .cmd | .status | .colorLen | .blockOut _ | .colorBuf _ | .reserved => s

/-- R69: the outputs of a running command. -/
def Running.outputs : Running → Target → Bool
  | .frame,     .blockIn _  => true
  | .sealBlock, .blockOut _ => true
  | .render,    .pix _      => true
  | .render,    .pixCols    => true
  | .encode,    .colorBuf _ => true
  | .encode,    .colorLen   => true
  | _,          _           => false

/-- R69: whether a host read of `t` returns an unspecified value in this phase. -/
def unspecifiedRead : Phase → Target → Bool
  | .idle,   _ => false
  | .init,   t => t.isRegion
  | .busy d, t => d.outputs t

/-- R69: a word whose four bytes are free draws, the first of them draw `n`. -/
def freeWord (n : Nat) : Word :=
  wordOf (Config.freeByte n) (Config.freeByte (n + 1)) (Config.freeByte (n + 2)) (Config.freeByte (n + 3))

/-- R60, R69: a host read: the value it returns, and the state after it, which differs only in the count of free draws. -/
def hostRead (s : State) (off : Nat) : Word × State :=
  if unspecifiedRead s.phase (target off) then (freeWord s.draws, { s with draws := s.draws + 4 })
  else (memRead Config.device s off, s)

/-- R61, R68: a host write. While the phase is not IDLE it is dropped and sets BUSYWR. -/
def hostWrite (s : State) (off : Nat) (v : Word) : Result :=
  if s.phase ≠ .idle then .next { s with status := { s.status with busyWr := true } }
  else match target off with
    | .cmd => issue v s
    | t    => .next (memWrite Config.device t v s)

end Sys2Proof.Machine
end

