-- ==== Sys2Proof/Machine/Agents.lean ====
section
/-! DEFINITION. The two agents (spec/00_scope.md R6), the host and the engine, and whose turn it is (R16, R99, R191). -/

namespace Sys2Proof.Machine

/-- The value of a host variable (R85); one not yet read into is 0. -/
def State.hostVar (s : State) (x : Nat) : Word := Table.read s.host.vars x

/-- The host goes to statement `k` of its program. -/
def State.hostGoto (s : State) (k : Nat) : State := { s with host := { s.host with pc := k } }

/-- The host goes to its next statement. -/
def State.hostAdvance (s : State) : State := s.hostGoto (s.host.pc + 1)

/-- Host variable `x` takes the value `v`. -/
def State.setHostVar (s : State) (x : Nat) (v : Word) : State :=
  { s with host := { s.host with vars := Table.write s.host.vars x v } }

/-- R85, R62, R63: one statement of the host. -/
def runStmt (s : State) : HostStmt → Result
  | .write width off v =>
    match accessError width off with
    | some r => .refused r
    | none   => hostWrite s.hostAdvance off v
  | .read width off x =>
    match accessError width off with
    | some r => .refused r
    | none   => .next (((hostRead s off).2.setHostVar x (hostRead s off).1).hostAdvance)
  | .bnz x mask k =>
    if s.hostVar x &&& mask ≠ 0 then .next (s.hostGoto k) else .next s.hostAdvance
  | .check x mask value =>
    if s.hostVar x &&& mask = value then .next s.hostAdvance else .fault (.hostCheckFailed s.host.pc)
  | .pulseRst => .next (assertReset s).hostAdvance

/-- The host's turn: its next statement, or nothing when its program is over. -/
def hostStep (s : State) : Result :=
  match s.host.prog[s.host.pc]? with
  | some stmt => runStmt s stmt
  | none      => .next s

/-- The engine's turn: the end of INIT (R181), or the completion of the running command (R97, R98, R101). While the phase is
IDLE the engine takes no step (R6). -/
def engineStep (s : State) : Result :=
  match s.phase with
  | .idle   => .next s
  | .init   => .next (endInit s)
  | .busy d =>
    match d.instr? with
    | some i => exec i s
    | none   => .next (raiseError .illegalCmd s)

/-- One step of the two agents. While the phase is IDLE the host moves. Otherwise the host moves until the latency drawn for the
command (or for INIT) is used up, and then the engine moves (R16, R99: any finite latency, so that it always completes). -/
def agentsStep (s : State) : Result :=
  if s.phase = .idle then hostStep s
  else match s.wait with
    | 0     => engineStep s
    | n + 1 => hostStep { s with wait := n }

/-- The state in which the very next step runs command word `v`. CLEAR takes effect in the step of the host write (R95), so the
host is given that one write, with the phase IDLE; any other word has just been accepted (R96) and the engine moves next. -/
def placeCommand (v : Word) (s : State) : State :=
  match decode v with
  | .illegal _ => { accept v .illegal s with wait := 0 }
  | .legal i   =>
    match runningOf i with
    | none   => { s with phase := .idle, host := { s.host with prog := [.write 32 cmdOffset v], pc := 0 } }
    | some d => { accept v d s with wait := 0 }

end Sys2Proof.Machine
end

