-- ==== Sys2Proof/Machine/Step.lean ====
section
/-! DEFINITION. One step of the machine, and the placing of a command for the next step. -/

namespace Sys2Proof.Machine

/-- One step: one host statement, or one engine step (spec/00_scope.md R6). -/
def step (s : State) : Host.Outcome State Fault Refusal := agentsStep s

/-- The state in which the next step runs the command whose table bits are `w` (assumption 6). -/
def State.withFetchWord (s : State) (nbits w : Nat) : State := placeCommand (tableWord nbits w) s

end Sys2Proof.Machine
end

