-- ==== Sys2Proof/Machine/HostProgram.lean ====
section
/-! DEFINITION. Host programs (spec/30_encoding.md R85 to R91): the expansion of the source lines, labels and
pseudo-instructions among them, to the primitive statements the host agent runs. The expansion is their meaning. -/

namespace Sys2Proof.Machine

/-- R89: how many words `n` bytes are packed into. -/
def wordsFor (n : Nat) : Nat := (n + 3) / 4

/-- R89: word `j` of a byte sequence, its missing bytes 0x00. -/
def packWord (bytes : List Byte) (j : Nat) : Word :=
  wordOf (bytes.getD (4 * j) 0#8) (bytes.getD (4 * j + 1) 0#8) (bytes.getD (4 * j + 2) 0#8) (bytes.getD (4 * j + 3) 0#8)

/-- R89: the writes of WRBYTES at offset `base`. -/
def wrbytesStmts (base : Nat) (bytes : List Byte) : List HostStmt :=
  (List.range (wordsFor bytes.length)).map fun j => .write 32 (base + 4 * j) (packWord bytes j)

/-- R86: `CMD` of a command word. -/
def cmdStmt (v : Word) : HostStmt := .write 32 cmdOffset v

/-- R87: `WAIT` at statement index `k`, with the fresh variable `x`; its fresh label is its own index. -/
def waitStmts (k x : Nat) : List HostStmt := [.read 32 statusOffset x, .bnz x 1#32 k]

/-- R88: `RUN` of a command word at statement index `k`. -/
def runStmts (v : Word) (k x : Nat) : List HostStmt := cmdStmt v :: waitStmts (k + 1) x

/-- R90: the word `(b << 16) OR (g << 8) OR r`. -/
def colorWord (r g b : Byte) : Word := b.setWidth 32 <<< 16 ||| g.setWidth 32 <<< 8 ||| r.setWidth 32

/-- How many primitive statements a line expands to. -/
def Line.size : Line → Nat
  | .label _        => 0
  | .wr _ _         => 1
  | .rd _ _         => 1
  | .bnz _ _ _      => 1
  | .check _ _ _    => 1
  | .cmd _          => 1
  | .cmdWord _      => 1
  | .wait           => 2
  | .run _          => 3
  | .runWord _      => 3
  | .wrbytes _ bs   => wordsFor bs.length
  | .color _ _ _ _  => 1
  | .text bs        => wordsFor bs.length + 1
  | .frameop op as  => wordsFor op.length + wordsFor as.length + 4
  | .schemeset _ _  => 1

/-- The labels of a program whose first statement has index `k`, each with the index of the statement it names. -/
def labelIndices : Nat → List Line → List (Nat × Nat)
  | _, []              => []
  | k, .label l :: ls  => (l, k) :: labelIndices k ls
  | k, line :: ls      => labelIndices (k + Line.size line) ls

/-- The variables a line names. -/
def Line.varBound : Line → Nat
  | .rd _ x      => x + 1
  | .bnz x _ _   => x + 1
  | .check x _ _ => x + 1
  | _            => 0

/-- A number above every variable a program names, from which the fresh variables of R87 are taken. -/
def freshBase (ls : List Line) : Nat := ls.foldl (fun m line => max m (Line.varBound line)) 0

/-- R85 to R91: the statements of one line at statement index `k`; none when it branches to a label the program lacks. The fresh
variable of a WAIT is told from every other by the index it stands at. -/
def expandLine (labels : List (Nat × Nat)) (fresh k : Nat) : Line → Option (List HostStmt)
  | .label _           => some []
  | .wr off v          => some [.write 32 off v]
  | .rd off x          => some [.read 32 off x]
  | .bnz x mask l      => (labels.lookup l).map fun t => [.bnz x mask t]
  | .check x mask v    => some [.check x mask v]
  | .cmd i             => some [cmdStmt (encode i)]
  | .cmdWord v         => some [cmdStmt v]
  | .wait              => some (waitStmts k (fresh + k))
  | .run i             => some (runStmts (encode i) k (fresh + k))
  | .runWord v         => some (runStmts v k (fresh + k))
  | .wrbytes rg bs     => some (wrbytesStmts (regionBase rg) bs)
  | .color reg r g b   => some [.write 32 (colorRegOffset reg) (colorWord r g b)]
  | .text bs           =>
    some (wrbytesStmts (regionBase .textBuf) bs ++ [.write 32 textLenOffset (BitVec.ofNat 32 bs.length)])
  | .frameop op as     =>
    let cfg := BitVec.ofNat 32 as.length <<< 8 ||| BitVec.ofNat 32 op.length
    let at' := k + wordsFor op.length + wordsFor as.length + 1
    some (wrbytesStmts (regionBase .opcodeBuf) op ++ wrbytesStmts (regionBase .argsBuf) as
      ++ [.write 32 frameCfgOffset cfg] ++ runStmts (encode .frame) at' (fresh + at'))
  | .schemeset st sep  => some [.write 32 schemeOffset (sep <<< 8 ||| st)]

/-- The statements of the lines from statement index `k` on. -/
def expandFrom (labels : List (Nat × Nat)) (fresh : Nat) : Nat → List Line → Option (List HostStmt)
  | _, []         => some []
  | k, line :: ls =>
    match expandLine labels fresh k line, expandFrom labels fresh (k + Line.size line) ls with
    | some here, some rest => some (here ++ rest)
    | _, _                 => none

/-- R85: the primitive statements of a host program's source; none when a branch names no label of it. -/
def assemble (ls : List Line) : Option (List HostStmt) := expandFrom (labelIndices 0 ls) (freshBase ls) 0 ls

/-- A state with the host about to run `prog` from its first statement: a host program is loaded from outside SMFE. -/
def State.withHostProgram (s : State) (prog : List HostStmt) : State :=
  { s with host := { s.host with prog := prog, pc := 0 } }

end Sys2Proof.Machine
end

