-- ==== Sys2Proof/Safety.lean ====
section
/-! DEFINITION. What claims about SMFE are stated with: the invariants of the state, the operands and outputs of a running
command, and what a host program does not do. -/

namespace Sys2Proof.Machine

/-- R40 to R46: the window offsets that hold a byte of storage on configuration `p`. -/
def storedOffset (p : Config) (a : Nat) : Prop :=
  (0x0040 ≤ a ∧ a < 0x0080) ∨ (0x0100 ≤ a ∧ a < 0x0140) ∨ (0x0400 ≤ a ∧ a < 0x0400 + 4 * p.maxCols) ∨
    (0x8000 ≤ a ∧ a < 0x8000 + colorCapacity p)

/-- The invariant of the window's memory: the canonical form; a byte outside the storage reads 0 (R45, R46: RAZ); and so do the
bits of a PIX word at and above ROWS (R45). -/
structure MemoryInv (p : Config) (s : State) : Prop where
  canonical : Memory.wf s.mem
  stored    : ∀ a, ¬ storedOffset p a → s.byteAt a = 0#8
  rows      : ∀ c, c < p.maxCols → s.mem.readWord (pixOffset c) &&& ~~~ rowMask p = 0#32

/-- The invariant of STATUS: ERRCODE is 0x00 whenever ERR = 0 (R30) and otherwise a code of R160; ERR only with DONE (R98); no DONE
while the engine is not IDLE (R29); LAST_OP names the running command (R33, R96). -/
structure StatusInv (s : State) : Prop where
  noError : s.status.err = false → s.status.errCode = 0#8
  error   : s.status.err = true → s.status.done = true ∧ ∃ e : ErrorCode, s.status.errCode = e.code
  running : s.phase ≠ .idle → s.status.done = false
  lastOp  : ∀ d i, s.phase = .busy d → d.instr? = some i → s.status.lastOp = opcode i

/-- Every operand and result register at its reset value (R55). -/
def registersAtReset (s : State) : Prop :=
  s.irqEn = false ∧ s.fgColor = Colour.zero ∧ s.bgColor = Colour.zero ∧ s.decoColor = Colour.zero ∧ s.style = 0#3 ∧
    s.sep = false ∧ s.opLen = 0#5 ∧ s.argLen = 0#5 ∧ s.textLen = 0#8 ∧ s.pixCols = 0#9 ∧
    s.colorLen = 0#16

/-- The invariant of the registers: during INIT they hold their reset values and LAST_OP is 0x00 (R55, R68, R180); COLOR_LEN never
exceeds the stored part of COLOR_BUF (R39, R125). -/
structure RegisterInv (p : Config) (s : State) : Prop where
  atInit   : s.phase = .init → registersAtReset s ∧ s.status.lastOp = 0#8
  colorLen : s.colorLen.toNat ≤ colorCapacity p

/-- The invariant of the machine: `MemoryInv`, `StatusInv` and `RegisterInv` on the device's configuration, and the host's variables
in canonical form. -/
structure State.Inv (s : State) : Prop where
  memory    : MemoryInv Config.device s
  status    : StatusInv s
  registers : RegisterInv Config.device s
  hostVars  : Table.Wf s.host.vars

/-- R188: no write of the host has been dropped since the last CLEAR or reset. -/
def State.noDroppedWrite (s : State) : Prop := s.status.busyWr = false

/-- A host program in which the reset input is never asserted. -/
def neverResets (s : State) : Prop := HostStmt.pulseRst ∉ s.host.prog

/-- The host is about to run `stmt`: the statement at its program counter, with the phase IDLE or the engine not yet due (R16). -/
def State.hostRuns (s : State) (stmt : HostStmt) : Prop :=
  s.host.prog[s.host.pc]? = some stmt ∧ (s.phase = .idle ∨ 0 < s.wait)

/-- The engine is about to complete the running command `d`. -/
def State.engineCompletes (s : State) (d : Running) : Prop := s.phase = .busy d ∧ s.wait = 0

/-- A run in which no step faults or is refused and no host write is dropped. -/
def SafeRun (s : State) (k : Nat) : Prop := ∃ t, Sys2Proof.core.run k s = .next t ∧ t.noDroppedWrite

end Sys2Proof.Machine
end

