-- ==== Sys2Proof/WellFormed.lean ====
section
/-! DEFINITION. Well-formedness: of a command (none has a field that could be wrong, spec/30_encoding.md R82), of a host access
(spec/20_memory.md R62, R63; spec/10_state.md R54), and of the lines of a host program (R85 to R91). -/

namespace Sys2Proof

/-- R82: no command has an immediate or a register-number field, so every command is well formed. -/
def Instr.wellFormed : Instr → Bool
  | .clear | .frame | .sealBlock | .render | .encode => true

/-- R62, R63, R54: a 32-bit access, word aligned, inside the window. -/
def wellFormedAccess (width off : Nat) : Bool := width = 32 && off % 4 = 0 && off < 0x10000

/-- A statement of the host that the machine does not refuse. -/
def HostStmt.wellFormed : HostStmt → Bool
  | .write width off _ => wellFormedAccess width off
  | .read width off _  => wellFormedAccess width off
  | .bnz _ _ _ | .check _ _ _ | .pulseRst => true

/-- R85 to R91: a source line whose accesses are well formed and whose byte strings fit their regions. -/
def Line.wellFormed : Line → Bool
  | .wr off _        => wellFormedAccess 32 off
  | .rd off _        => wellFormedAccess 32 off
  | .wrbytes rg bs   => bs.length ≤ Machine.regionSize rg
  | .text bs         => bs.length ≤ Machine.regionSize .textBuf
  | .frameop op args => op.length ≤ Machine.regionSize .opcodeBuf && args.length ≤ Machine.regionSize .argsBuf
  | .label _ | .bnz _ _ _ | .check _ _ _ | .cmd _ | .cmdWord _ | .wait | .run _ | .runWord _ | .color _ _ _ _
  | .schemeset _ _   => true

/-- The labels a program declares, in order. -/
def declaredLabels (ls : List Line) : List Nat := (Machine.labelIndices 0 ls).map Prod.fst

/-- Whether the label a line branches to, if any, is declared. -/
def Line.targetDeclared (labels : List Nat) : Line → Bool
  | .bnz _ _ l => l ∈ labels
  | _          => true

/-- A host program: every line well formed, no label declared twice, every branch to a label of the program. -/
def wellFormedProgram (ls : List Line) : Bool :=
  ls.all Line.wellFormed && (declaredLabels ls).Nodup && ls.all (Line.targetDeclared (declaredLabels ls))

end Sys2Proof
end

