-- ==== Sys2Proof/Certificates/Slice0/Obligations.lean ====
section
/-! DEFINITION. The statements about SMFE, for the provers. Each names the rules of spec/ it formalises. A statement about `exec`
holds in every phase: `exec` is the command's own effect, its completion step (R97, R98), or CLEAR's (R100). -/

open Sys2Proof Sys2Proof.Machine

/-! ## Command words -/

/-- R81, R84: the five command words, written out, and one word of each illegal kind. -/
def Obligations.DecodesTheCommandWords : Prop :=
  decode 0x00000000#32 = .legal .clear ∧ decode 0x00000001#32 = .legal .frame ∧
    decode 0x00000002#32 = .legal .sealBlock ∧ decode 0x00000003#32 = .legal .render ∧
    decode 0x00000004#32 = .legal .encode ∧ decode 0x00000005#32 = .illegal .opcodeUnassigned ∧
    decode 0x00000101#32 = .illegal .reservedNotZero ∧ decode 0x80000002#32 = .illegal .reservedNotZero

/-- R81, R84: a word is a legal command exactly when it is that command's one encoding, the zero extension of its opcode number;
it is illegal exactly when RSVD is not 0 or OP is 0x05 or more. -/
def Obligations.LegalWordsAreTheFiveEncodings : Prop :=
  (∀ (v : Word) (i : Instr), decode v = .legal i ↔ v = encode i) ∧
    (∀ v : Word, (∃ i, decode v = .legal i) ↔ v.extractLsb' 8 24 = 0#24 ∧ (v.extractLsb' 0 8).toNat ≤ 0x04) ∧
    (∀ v : Word, (∃ why, decode v = .illegal why) ↔ v.extractLsb' 8 24 ≠ 0#24 ∨ 0x05 ≤ (v.extractLsb' 0 8).toNat) ∧
    encode .clear = 0x00000000#32 ∧ encode .frame = 0x00000001#32 ∧ encode .sealBlock = 0x00000002#32 ∧
    encode .render = 0x00000003#32 ∧ encode .encode = 0x00000004#32

/-! ## The command cycle -/

/-- R95, R97: the engine's turn on a running command is that command's meaning; a host write of CLEAR's word to CMD while IDLE is
CLEAR's meaning, the host being past the write; a host write of any other legal word while IDLE makes that command the running
one. Whose turn a step is, is the model's schedule (assumptions 1 and 7). -/
def Obligations.StepRunsTheDecodedCommand : Prop :=
  (∀ (s : State) (d : Running) (i : Instr), s.engineCompletes d → d.instr? = some i → step s = exec i s) ∧
    (∀ (s : State) (v : Word), s.phase = .idle → s.hostRuns (.write 32 cmdOffset v) → decode v = .legal .clear →
      step s = exec .clear s.hostAdvance) ∧
    (∀ (s : State) (v : Word) (i : Instr), s.phase = .idle → s.hostRuns (.write 32 cmdOffset v) → decode v = .legal i →
      i ≠ .clear → ∃ d, d.instr? = some i ∧ step s = .next (accept v d s.hostAdvance))

/-- R96: acceptance. -/
def Obligations.AcceptanceRecordsTheCommand : Prop :=
  ∀ (s : State) (v : Word), s.phase = .idle → decode v ≠ .legal .clear →
    ∃ (d : Running) (t : State), hostWrite s cmdOffset v = .next t ∧ d.instr? = (decode v).instr? ∧
      t = { s with
        status := { done := false, err := false, errCode := 0x00#8, busyWr := s.status.busyWr, lastOp := v.extractLsb' 0 8 }
        phase  := .busy d
        wait   := t.wait
        draws  := t.draws } ∧
      t.busy = true ∧ t.statusWord.getLsbD 0 = true ∧ t.irq = false

/-- R97, R98, R164: the completion of a command other than CLEAR leaves the engine IDLE with DONE set and touches no operand, no
host, no LAST_OP and no BUSYWR; when it reports an error, nothing but STATUS and the phase changed; ERRCODE is 0x00 exactly when
ERR is 0. -/
def Obligations.EveryCompletionEndsIdleAndDone : Prop :=
  ∀ (i : Instr) (s : State), i ≠ .clear → ∃ t, exec i s = .next t ∧
    t.phase = .idle ∧ t.status.done = true ∧ t.status.lastOp = s.status.lastOp ∧ t.status.busyWr = s.status.busyWr ∧
    (t.status.errCode = 0x00#8 ↔ t.status.err = false) ∧
    t = { s with status := t.status, phase := .idle, mem := t.mem, pixCols := t.pixCols, colorLen := t.colorLen } ∧
    (t.status.err = true → t = { s with status := t.status, phase := .idle }) ∧
    (i ≠ .render → t.pixCols = s.pixCols) ∧ (i ≠ .encode → t.colorLen = s.colorLen)

/-- R100: CLEAR. Its own effect; its issue by a host write while IDLE; and its loss while the engine is busy. -/
def Obligations.ClearAcknowledgesStatus : Prop :=
  (∀ s : State, exec .clear s = .next { s with
      status := { done := false, err := false, errCode := 0x00#8, busyWr := false, lastOp := 0x00#8 } }) ∧
    (∀ s : State, s.phase = .idle → ∃ t, hostWrite s cmdOffset 0x00000000#32 = .next t ∧
      t = { s with status := t.status } ∧ t.statusWord = 0x00000000#32 ∧ t.irq = false) ∧
    (∀ s : State, s.phase ≠ .idle →
      hostWrite s cmdOffset 0x00000000#32 = .next { s with status := { s.status with busyWr := true } }) ∧
    (∀ v : Word, v.extractLsb' 8 24 ≠ 0#24 → decode v ≠ .legal .clear)

/-- R101: an illegal word is accepted, and completes with ILLEGAL_CMD; nothing but STATUS and the phase changes. -/
def Obligations.IllegalWordFails : Prop :=
  (∀ (s : State) (v : Word), s.phase = .idle → v.extractLsb' 8 24 ≠ 0#24 ∨ 0x05 ≤ (v.extractLsb' 0 8).toNat →
      ∃ t, hostWrite s cmdOffset v = .next t ∧ t.busy = true ∧
        t = { s with
          status := { done := false, err := false, errCode := 0x00#8, busyWr := s.status.busyWr, lastOp := v.extractLsb' 0 8 }
          phase  := .busy .illegal
          wait   := t.wait
          draws  := t.draws }) ∧
    (∀ s : State, s.engineCompletes .illegal → step s = .next { s with
      status := { s.status with err := true, errCode := 0x01#8, done := true }
      phase  := .idle })

/-! ## FRAME -/

/-- R140, R142 to R146: the frame FRAME builds, byte by byte, and all that it leaves alone. -/
def Obligations.FrameBuildsTheBlock : Prop :=
  ∀ s : State, Memory.wf s.mem → 1 + s.opLen.toNat + s.argLen.toNat ≤ 16 → ∃ t, exec .frame s = .next t ∧
    (t.byteAt 0x0060).toNat = s.opLen.toNat + s.argLen.toNat ∧
    (∀ i, i < s.opLen.toNat → t.byteAt (0x0060 + 1 + i) = s.byteAt (0x0040 + i)) ∧
    (∀ i, i < s.argLen.toNat → t.byteAt (0x0060 + 1 + s.opLen.toNat + i) = s.byteAt (0x0050 + i)) ∧
    (∀ i, s.opLen.toNat + s.argLen.toNat + 1 ≤ i → i ≤ 15 → t.byteAt (0x0060 + i) = 0x00#8) ∧
    (∀ a, a < 0x0060 ∨ 0x0070 ≤ a → t.byteAt a = s.byteAt a) ∧
    t = { s with
      mem := t.mem
      status := { s.status with err := false, errCode := 0x00#8, done := true }
      phase := .idle }

/-- R141: FRAME fails exactly when the contents exceed 16 bytes, and then nothing but STATUS and the phase changes. -/
def Obligations.FrameOverflowWritesNothing : Prop :=
  ∀ s : State,
    (16 < 1 + s.opLen.toNat + s.argLen.toNat → exec .frame s = .next { s with
      status := { s.status with err := true, errCode := 0x02#8, done := true }
      phase := .idle }) ∧
    (∀ t, exec .frame s = .next t → (t.status.err = true ↔ 16 < 1 + s.opLen.toNat + s.argLen.toNat))

/-! ## SEAL -/

/-- R150, R151, R155: SEAL writes CIPHER(KEY, BLOCK_IN) to BLOCK_OUT, byte by byte, whatever BLOCK_IN holds, and leaves all else
alone. -/
def Obligations.SealEncryptsTheBlock : Prop :=
  ∀ s : State, Memory.wf s.mem → ∃ t, exec .sealBlock s = .next t ∧
    (∀ i, ∀ h : i < 16, t.byteAt (0x0070 + i) =
      (Config.device.cipherKey.cipher Config.device.cipherKey.key
        (Vector.ofFn fun j : Fin 16 => s.byteAt (0x0060 + j.val)))[i]) ∧
    (∀ a, a < 0x0070 ∨ 0x0080 ≤ a → t.byteAt a = s.byteAt a) ∧
    t = { s with
      mem := t.mem
      status := { s.status with err := false, errCode := 0x00#8, done := true }
      phase := .idle }

/-- R152, R154: two SEALs give equal BLOCK_OUT exactly when their BLOCK_IN are equal, and a decryption exists that gives every
BLOCK_IN back. -/
def Obligations.SealIsInjectiveAndMemoryless : Prop :=
  (∀ s s' t t' : State, Memory.wf s.mem → Memory.wf s'.mem → exec .sealBlock s = .next t → exec .sealBlock s' = .next t' →
      (t.blockOut = t'.blockOut ↔ s.blockIn = s'.blockIn)) ∧
    ∃ decrypt : Block → Block, ∀ s t : State, Memory.wf s.mem → exec .sealBlock s = .next t → decrypt t.blockOut = s.blockIn

/-! ## RENDER -/

/-- R110, R112 to R115, R117: the columns a successful RENDER draws, on every admitted configuration, and all that it leaves
alone. The command itself is this on the device's configuration. -/
def Obligations.RenderDrawsTheText : Prop :=
  (∀ s : State, exec .render s = .next (renderOn Config.device s)) ∧
    ∀ (p : Config) (s t : State), Memory.wf s.mem → s.textLen.toNat ≤ 64 →
      columnCount p s.textLen.toNat ≤ p.maxCols → renderOn p s = t →
      (∀ i j, i < s.textLen.toNat → j < p.gw → t.pixColumn p (i * (p.gw + 1) + j) =
        match p.glyph (s.byteAt (0x0100 + i)) with
        | some g => (g.toList.getD j 0).setWidth 32
        | none   => 0x00000000#32) ∧
      (∀ i, i + 1 < s.textLen.toNat → t.pixColumn p (i * (p.gw + 1) + p.gw) = 0x00000000#32) ∧
      (s.textLen.toNat = 0 → t.pixCols.toNat = 0) ∧
      (1 ≤ s.textLen.toNat → t.pixCols.toNat = s.textLen.toNat * p.gw + (s.textLen.toNat - 1)) ∧
      (∀ a, a < 0x0400 ∨ 0x0400 + 4 * t.pixCols.toNat ≤ a → t.byteAt a = s.byteAt a) ∧
      t = { s with
        mem := t.mem
        pixCols := t.pixCols
        status := { s.status with err := false, errCode := 0x00#8, done := true }
        phase := .idle }

/-- R111, R116, R163: RENDER's two errors in their order, on every admitted configuration; nothing but STATUS and the phase
changes. -/
def Obligations.RenderRefusesWhatDoesNotFit : Prop :=
  ∀ (p : Config) (s : State),
    (64 < s.textLen.toNat → renderOn p s = { s with
      status := { s.status with err := true, errCode := 0x04#8, done := true }
      phase := .idle }) ∧
    (1 ≤ s.textLen.toNat → s.textLen.toNat ≤ 64 → p.maxCols < s.textLen.toNat * p.gw + (s.textLen.toNat - 1) →
      renderOn p s = { s with
        status := { s.status with err := true, errCode := 0x03#8, done := true }
        phase := .idle }) ∧
    ((renderOn p s).status.err = true ↔
      64 < s.textLen.toNat ∨ p.maxCols < s.textLen.toNat * p.gw + (s.textLen.toNat - 1))

/-- R116, R118: the largest text that renders, and no wrap of the column count. -/
def Obligations.LargestRenderableText : Prop :=
  ∀ (p : Config) (s : State), s.textLen.toNat ≤ 64 →
    (((renderOn p s).status.err = false ↔ s.textLen.toNat ≤ (p.maxCols + 1) / (p.gw + 1)) ∧
      columnCount p s.textLen.toNat < 2 ^ 12)

/-! ## ENCODE -/

/-- R120, R122 to R126: the colour of every pixel of the matrix, in the colour buffer, on every admitted configuration, and all
that ENCODE leaves alone. The command itself is this on the device's configuration. -/
def Obligations.EncodeColoursEveryPixel : Prop :=
  (∀ s : State, exec .encode s = .next (encodeOn Config.device s)) ∧
    ∀ (p : Config) (s t : State) (st : Style), Memory.wf s.mem → s.pixCols.toNat ≤ p.maxCols →
      Style.ofField s.style = some st → encodeOn p s = t →
      (∀ c r, c < s.pixCols.toNat → r < p.rows →
        ∃ col : Colour,
          col = (if s.pixel p c r = false then s.bgColor
            else if s.sep = true ∧ deco p st c r s.pixCols.toNat = true then s.decoColor else s.fgColor) ∧
          t.byteAt (0x8000 + 3 * pixelIndex p c r s.pixCols.toNat) = col.r ∧
          t.byteAt (0x8000 + 3 * pixelIndex p c r s.pixCols.toNat + 1) = col.g ∧
          t.byteAt (0x8000 + 3 * pixelIndex p c r s.pixCols.toNat + 2) = col.b) ∧
      t.colorLen.toNat = 3 * s.pixCols.toNat * p.rows ∧
      (∀ a, a < 0x8000 ∨ 0x8000 + 3 * s.pixCols.toNat * p.rows ≤ a → t.byteAt a = s.byteAt a) ∧
      t = { s with
        mem := t.mem
        colorLen := t.colorLen
        status := { s.status with err := false, errCode := 0x00#8, done := true }
        phase := .idle }

/-- R121, R163: ENCODE's two checks in their order, on every admitted configuration; nothing but STATUS and the phase changes. -/
def Obligations.EncodeChecksItsOperands : Prop :=
  ∀ (p : Config) (s : State),
    (p.maxCols < s.pixCols.toNat → encodeOn p s = { s with
      status := { s.status with err := true, errCode := 0x05#8, done := true }
      phase := .idle }) ∧
    (s.pixCols.toNat ≤ p.maxCols → 5 ≤ s.style.toNat → encodeOn p s = { s with
      status := { s.status with err := true, errCode := 0x06#8, done := true }
      phase := .idle }) ∧
    ((encodeOn p s).status.err = true ↔ p.maxCols < s.pixCols.toNat ∨ 5 ≤ s.style.toNat)

/-- R123: the two index formulas, and that each is a bijection from the pixels of the matrix onto 0..W·ROWS-1. -/
def Obligations.PixelIndexIsABijection : Prop :=
  ∀ (p : Config) (w : Nat),
    (p.scanOrder = .colMajor → ∀ c r, pixelIndex p c r w = c * p.rows + r) ∧
    (p.scanOrder = .rowMajor → ∀ c r, pixelIndex p c r w = r * w + c) ∧
    (∀ c r, c < w → r < p.rows → pixelIndex p c r w < w * p.rows) ∧
    (∀ c r c' r', c < w → r < p.rows → c' < w → r' < p.rows → pixelIndex p c r w = pixelIndex p c' r' w → c = c' ∧ r = r') ∧
    (∀ k, k < w * p.rows → ∃ c r, c < w ∧ r < p.rows ∧ pixelIndex p c r w = k)

/-- R129 to R134: the decoration region of each style, by the number that selects it; and the numbers that select one are 0 to 4
(R35). -/
def Obligations.DecorationRegions : Prop :=
  (∀ (p : Config) (st : Style) (f : BitVec 3) (c r w : Nat), Style.ofField f = some st →
    (f.toNat = 0 → deco p st c r w = false) ∧
    (f.toNat = 1 → (deco p st c r w = true ↔ r = 0 ∨ r = p.rows - 1)) ∧
    (f.toNat = 2 → (deco p st c r w = true ↔ (r = 0 ∨ r = p.rows - 1) ∧ c % p.dotN = 0)) ∧
    (f.toNat = 3 → (deco p st c r w = true ↔ c / p.blockW % 2 = 0)) ∧
    (f.toNat = 4 → (deco p st c r w = true ↔ r = (p.waveRow c w).val))) ∧
    ∀ f : BitVec 3, (∃ st, Style.ofField f = some st) ↔ f.toNat ≤ 4

/-- R127: in unified mode every on pixel is FG_COLOR and every off pixel BG_COLOR, whatever the legal style. -/
def Obligations.UnifiedModeIgnoresTheStyle : Prop :=
  ∀ (p : Config) (s : State) (f : BitVec 3), s.sep = false → s.style.toNat ≤ 4 → f.toNat ≤ 4 →
    (encodeOn p { s with style := f }).mem = (encodeOn p s).mem ∧
    ∀ (st : Style) (c r : Nat), colorOf p s st c r = (if s.pixel p c r then s.fgColor else s.bgColor)

/-- R138: with style `none`, or in unified mode, DECO_COLOR is never selected: every triple written is FG_COLOR or BG_COLOR, and
the buffer does not depend on DECO_COLOR. -/
def Obligations.UndecoratedEncodeNeverUsesDecoColor : Prop :=
  ∀ (p : Config) (s : State) (x : Colour), s.style = 0#3 ∨ s.sep = false →
    (encodeOn p { s with decoColor := x }).mem = (encodeOn p s).mem ∧
    (Memory.wf s.mem → s.pixCols.toNat ≤ p.maxCols → s.style.toNat ≤ 4 → ∀ k, k < s.pixCols.toNat * p.rows →
      ∃ col : Colour, (col = s.fgColor ∨ col = s.bgColor) ∧
        (encodeOn p s).byteAt (0x8000 + 3 * k) = col.r ∧ (encodeOn p s).byteAt (0x8000 + 3 * k + 1) = col.g ∧
        (encodeOn p s).byteAt (0x8000 + 3 * k + 2) = col.b)

/-- R135: ENCODE is a pure function of its operands: two states that agree on them get the same bytes and the same length, and
no operand changes. -/
def Obligations.EncodeIsAPureFunctionOfItsOperands : Prop :=
  ∀ (p : Config) (s s' t t' : State), Memory.wf s.mem → Memory.wf s'.mem →
    s.pixCols = s'.pixCols → s.style = s'.style → s.sep = s'.sep → s.fgColor = s'.fgColor → s.bgColor = s'.bgColor →
    s.decoColor = s'.decoColor → (∀ c, c < s.pixCols.toNat → s.pixColumn p c = s'.pixColumn p c) →
    encodeOn p s = t → encodeOn p s' = t' → t.status.err = false →
    (∀ k, k < 3 * s.pixCols.toNat * p.rows → t.byteAt (0x8000 + k) = t'.byteAt (0x8000 + k)) ∧
    t.colorLen = t'.colorLen ∧
    t.pixCols = s.pixCols ∧ t.style = s.style ∧ t.sep = s.sep ∧ t.fgColor = s.fgColor ∧ t.bgColor = s.bgColor ∧
    t.decoColor = s.decoColor ∧ (∀ c, t.pixColumn p c = s.pixColumn p c)

/-! ## Host accesses -/

/-- R25, R34 to R38, R61: what each read-write register stores of a 32-bit write while IDLE, field by field, and that it reads back
so; nothing but that register changes. -/
def Obligations.RegistersReadBackWhatTheyStore : Prop :=
  ∀ (s : State) (v : Word), s.phase = .idle →
    (∃ t, hostWrite s 0x0008 v = .next t ∧ t = { s with irqEn := v.getLsbD 0 } ∧
      hostRead t 0x0008 = (v &&& 0x00000001#32, t)) ∧
    (∃ t, hostWrite s 0x0020 v = .next t ∧ t = { s with
        fgColor := { r := v.extractLsb' 0 8, g := v.extractLsb' 8 8, b := v.extractLsb' 16 8 } } ∧
      hostRead t 0x0020 = (v &&& 0x00FFFFFF#32, t)) ∧
    (∃ t, hostWrite s 0x0024 v = .next t ∧ t = { s with
        bgColor := { r := v.extractLsb' 0 8, g := v.extractLsb' 8 8, b := v.extractLsb' 16 8 } } ∧
      hostRead t 0x0024 = (v &&& 0x00FFFFFF#32, t)) ∧
    (∃ t, hostWrite s 0x0028 v = .next t ∧ t = { s with
        decoColor := { r := v.extractLsb' 0 8, g := v.extractLsb' 8 8, b := v.extractLsb' 16 8 } } ∧
      hostRead t 0x0028 = (v &&& 0x00FFFFFF#32, t)) ∧
    (∃ t, hostWrite s 0x002C v = .next t ∧ t = { s with style := v.extractLsb' 0 3, sep := v.getLsbD 8 } ∧
      hostRead t 0x002C = (v &&& 0x00000107#32, t)) ∧
    (∃ t, hostWrite s 0x0030 v = .next t ∧
      t = { s with opLen := v.extractLsb' 0 5, argLen := v.extractLsb' 8 5 } ∧
      hostRead t 0x0030 = (v &&& 0x00001F1F#32, t)) ∧
    (∃ t, hostWrite s 0x0034 v = .next t ∧ t = { s with textLen := v.extractLsb' 0 8 } ∧
      hostRead t 0x0034 = (v &&& 0x000000FF#32, t)) ∧
    (∃ t, hostWrite s 0x0038 v = .next t ∧ t = { s with pixCols := v.extractLsb' 0 9 } ∧
      hostRead t 0x0038 = (v &&& 0x000001FF#32, t))

/-- R40 to R42, R44, R61, R64: a write to a read-write byte region stores the word's four bytes, the lowest offset first, and
nothing else; it reads back as written. -/
def Obligations.RegionWritesAreLittleEndian : Prop :=
  ∀ (s : State) (off : Nat) (v : Word), s.phase = .idle → Memory.wf s.mem → off % 4 = 0 →
    (0x0040 ≤ off ∧ off < 0x0070) ∨ (0x0100 ≤ off ∧ off < 0x0140) →
    ∃ t, hostWrite s off v = .next t ∧
      (∀ j, j < 4 → t.byteAt (off + j) = v.extractLsb' (8 * j) 8) ∧
      (∀ a, a < off ∨ off + 4 ≤ a → t.byteAt a = s.byteAt a) ∧
      t = { s with mem := t.mem } ∧ hostRead t off = (v, t)

/-- R45: a write of a PIX word below MAX_COLS stores its low ROWS bits, which read back zero-extended; a write at or beyond
MAX_COLS has no effect, and such a word reads 0; on every admitted configuration. The bus itself is this on the device's. -/
def Obligations.PixWordsHoldTheirRows : Prop :=
  (∀ (s : State) (c : Nat) (v : Word), s.phase = .idle → c < 256 →
      hostWrite s (0x0400 + 4 * c) v = .next (memWrite Config.device (target (0x0400 + 4 * c)) v s) ∧
      hostRead s (0x0400 + 4 * c) = (memRead Config.device s (0x0400 + 4 * c), s)) ∧
    ∀ (p : Config) (s t : State) (c : Nat) (v : Word), Memory.wf s.mem → c < 256 →
      memWrite p (target (0x0400 + 4 * c)) v s = t →
      t = { s with mem := t.mem } ∧
      (∀ a, a < 0x0400 + 4 * c ∨ 0x0404 + 4 * c ≤ a → t.byteAt a = s.byteAt a) ∧
      (c < p.maxCols → ∀ r, r < 32 →
        (memRead p t (0x0400 + 4 * c)).getLsbD r = (decide (r < p.rows) && v.getLsbD r)) ∧
      (p.maxCols ≤ c → t = s ∧ memRead p t (0x0400 + 4 * c) = 0x00000000#32)

/-- R34, R90: the word COLOR writes leaves its red, green and blue in the colour register, and changes nothing else. -/
def Obligations.ColorWritesItsTriple : Prop :=
  ∀ (s : State) (reg : ColorReg) (r g b : Byte), s.phase = .idle →
    ∃ t, hostWrite s (colorRegOffset reg) (colorWord r g b) = .next t ∧
      (match reg with
        | .fg => t = { s with fgColor := { r := r, g := g, b := b } }
        | .bg => t = { s with bgColor := { r := r, g := g, b := b } }
        | .deco => t = { s with decoColor := { r := r, g := g, b := b } })

/-- R65, R66: a write to a read-only or reserved offset while IDLE changes nothing, and a reserved offset reads 0; CMD reads 0 in
every phase. -/
def Obligations.IgnoredWritesChangeNothing : Prop :=
  (∀ (s : State) (off : Nat) (v : Word), s.phase = .idle → off % 4 = 0 → off < 0x10000 →
    (off ≤ 0x0004 ∨ off = 0x0010 ∨ off = 0x003C ∨ (0x0070 ≤ off ∧ off < 0x0080) ∨ 0x8000 ≤ off →
      hostWrite s off v = .next s) ∧
    ((0x0014 ≤ off ∧ off < 0x0020) ∨ (0x0080 ≤ off ∧ off < 0x0100) ∨ (0x0140 ≤ off ∧ off < 0x0400) ∨
      (0x0800 ≤ off ∧ off < 0x8000) → hostWrite s off v = .next s ∧ hostRead s off = (0x00000000#32, s))) ∧
    ∀ s : State, hostRead s 0x000C = (0x00000000#32, s)

/-- R68, R104: every write while the engine is not IDLE, to any offset, sets BUSYWR and does nothing else. -/
def Obligations.BusyWritesAreDropped : Prop :=
  ∀ (s : State) (off : Nat) (v : Word), s.phase ≠ .idle → off % 4 = 0 → off < 0x10000 →
    hostWrite s off v = .next { s with status := { s.status with busyWr := true } }

/-- R61, R60, R85: the step in which the host runs a write or a read is that bus access, the host being past the statement; a read, in
any phase, changes no state of SMFE. While the engine is not IDLE the step uses up one step of the latency (the model's schedule,
assumption 1), and a read of an unspecified value draws fresh free bytes (assumption 2). -/
def Obligations.HostAccessesReachTheBus : Prop :=
  (∀ (s : State) (off : Nat) (v : Word), s.hostRuns (.write 32 off v) → off % 4 = 0 → off < 0x10000 →
      (s.phase = .idle → step s = hostWrite s.hostAdvance off v) ∧
      (∀ n, s.phase ≠ .idle → s.wait = n + 1 → step s = hostWrite { s.hostAdvance with wait := n } off v)) ∧
    (∀ (s : State) (off x : Nat), s.hostRuns (.read 32 off x) → off % 4 = 0 → off < 0x10000 →
      ∃ t, step s = .next t ∧
        t = { s with
          wait := t.wait
          draws := (hostRead s off).2.draws
          host := { s.host with vars := Table.write s.host.vars x (hostRead s off).1, pc := s.host.pc + 1 } } ∧
        (s.phase = .idle → t.wait = s.wait) ∧ (s.phase ≠ .idle → s.wait = t.wait + 1))

/-- R69: a read of an output of the running command, or of a region during INIT, returns four free bytes; every other read returns
the stored value; neither changes SMFE's state. The form of the
free draw is the model's (assumption 2). -/
def Obligations.UnspecifiedReadsAreFreeDraws : Prop :=
  ∀ (s : State) (off : Nat), off % 4 = 0 → off < 0x10000 →
    ((s.phase = .init ∧ ((0x0040 ≤ off ∧ off < 0x0080) ∨ (0x0100 ≤ off ∧ off < 0x0140) ∨ (0x0400 ≤ off ∧ off < 0x0800) ∨
          0x8000 ≤ off)) ∨
        (s.phase = .busy .frame ∧ 0x0060 ≤ off ∧ off < 0x0070) ∨
        (s.phase = .busy .sealBlock ∧ 0x0070 ≤ off ∧ off < 0x0080) ∨
        (s.phase = .busy .render ∧ (off = 0x0038 ∨ (0x0400 ≤ off ∧ off < 0x0800))) ∨
        (s.phase = .busy .encode ∧ (off = 0x003C ∨ 0x8000 ≤ off)) →
      ∃ x, hostRead s off = (x, { s with draws := s.draws + 4 }) ∧
        ∀ j, j < 4 → x.extractLsb' (8 * j) 8 = Config.freeByte (s.draws + j)) ∧
    (¬ ((s.phase = .init ∧ ((0x0040 ≤ off ∧ off < 0x0080) ∨ (0x0100 ≤ off ∧ off < 0x0140) ∨
            (0x0400 ≤ off ∧ off < 0x0800) ∨ 0x8000 ≤ off)) ∨
        (s.phase = .busy .frame ∧ 0x0060 ≤ off ∧ off < 0x0070) ∨
        (s.phase = .busy .sealBlock ∧ 0x0070 ≤ off ∧ off < 0x0080) ∨
        (s.phase = .busy .render ∧ (off = 0x0038 ∨ (0x0400 ≤ off ∧ off < 0x0800))) ∨
        (s.phase = .busy .encode ∧ (off = 0x003C ∨ 0x8000 ≤ off))) →
      hostRead s off = (memRead Config.device s off, s))

/-- R60, R46: while IDLE a read changes nothing, returns a region's four bytes with the lowest offset in bits 7:0, and reads the
part of COLOR_BUF beyond the stored bytes as 0. -/
def Obligations.IdleReadsReturnTheStoredBytes : Prop :=
  ∀ (s : State) (off : Nat), s.phase = .idle → off % 4 = 0 →
    ((0x0040 ≤ off ∧ off < 0x0080) ∨ (0x0100 ≤ off ∧ off < 0x0140) →
      ∃ x, hostRead s off = (x, s) ∧ ∀ j, j < 4 → x.extractLsb' (8 * j) 8 = s.byteAt (off + j)) ∧
    (∀ k, off = 0x8000 + k → off < 0x10000 →
      ∃ x, hostRead s off = (x, s) ∧ ∀ j, j < 4 → x.extractLsb' (8 * j) 8 =
        (if k + j < 3 * Config.device.maxCols * Config.device.rows then s.byteAt (off + j) else 0x00#8))

/-- R62, R63, R54: an access that is not 32 bits wide, not aligned or outside the window is refused, in every phase in which the host
moves. The order of the three checks and the names of the refusals are the model's choice (assumption 8). -/
def Obligations.BadAccessesAreRefused : Prop :=
  ∀ (s : State) (width off x : Nat) (v : Word), s.hostRuns (.write width off v) ∨ s.hostRuns (.read width off x) →
    (width ≠ 32 → step s = .refused (.accessWidth width off)) ∧
    (width = 32 → off % 4 ≠ 0 → step s = .refused (.misaligned off)) ∧
    (width = 32 → off % 4 = 0 → 0x10000 ≤ off → step s = .refused (.outsideWindow off))

/-- R85: a read puts its value in the host's variable; BNZ goes to its label exactly when a masked bit is set; CHECK goes on exactly
when its assertion holds. Each changes the host alone, and the schedule. That a failed CHECK is a fault is the model's choice
(assumption 8). -/
def Obligations.HostReadsBranchesAndChecks : Prop :=
  (∀ (s : State) (off x : Nat), s.phase = .idle → Table.Wf s.host.vars → s.hostRuns (.read 32 off x) → off % 4 = 0 →
      off < 0x10000 → ∃ t, step s = .next t ∧ t.hostVar x = memRead Config.device s off ∧
        (∀ y, y ≠ x → t.hostVar y = s.hostVar y) ∧
        t = { s with host := { s.host with vars := t.host.vars, pc := s.host.pc + 1 } }) ∧
    (∀ (s : State) (x k : Nat) (mask : Word), s.hostRuns (.bnz x mask k) → ∃ t, step s = .next t ∧
      (s.hostVar x &&& mask ≠ 0#32 → t.host.pc = k) ∧ (s.hostVar x &&& mask = 0#32 → t.host.pc = s.host.pc + 1) ∧
      t = { s with wait := t.wait, host := { s.host with pc := t.host.pc } }) ∧
    (∀ (s : State) (x : Nat) (mask value : Word), s.hostRuns (.check x mask value) →
      (s.hostVar x &&& mask = value → ∃ t, step s = .next t ∧
        t = { s with wait := t.wait, host := { s.host with pc := s.host.pc + 1 } }) ∧
      (s.hostVar x &&& mask ≠ value → step s = .fault (.hostCheckFailed s.host.pc)))

/-- R87, R16, R99, R181: WAIT, from any phase: the host leaves it, with the engine IDLE and the last STATUS it read, with BUSY = 0, in
its variable. WAIT ends because every latency is finite; that it is counted in steps of the host is the model's choice
(assumption 1). -/
def Obligations.WaitEndsWithBusyClear : Prop :=
  ∀ (s : State) (k x : Nat), Table.Wf s.host.vars → s.host.pc = k →
    s.host.prog[k]? = some (.read 32 statusOffset x) → s.host.prog[k + 1]? = some (.bnz x 0x00000001#32 k) →
    ∃ n t, Sys2Proof.core.run n s = .next t ∧ t.host.pc = k + 2 ∧ t.phase = .idle ∧ t.hostVar x = t.statusWord ∧
      (t.hostVar x).getLsbD 0 = false ∧ t.host.prog = s.host.prog ∧ (∀ y, y ≠ x → t.hostVar y = s.hostVar y)

/-- R89: the writes WRBYTES expands to store its bytes in the region, pad the last word with 0x00, and keep every other byte. -/
def Obligations.WrbytesStoresItsBytes : Prop :=
  ∀ (s : State) (rg : Region) (bytes : List Byte), rg = .opcodeBuf ∨ rg = .argsBuf ∨ rg = .blockIn ∨ rg = .textBuf →
    bytes.length ≤ regionSize rg → s.phase = .idle → Memory.wf s.mem →
    s.host.prog = wrbytesStmts (regionBase rg) bytes → s.host.pc = 0 →
    ∃ t, Sys2Proof.core.run (wordsFor bytes.length) s = .next t ∧
      (∀ i, ∀ h : i < bytes.length, t.byteAt (regionBase rg + i) = bytes[i]) ∧
      (∀ i, bytes.length ≤ i → i < 4 * wordsFor bytes.length → t.byteAt (regionBase rg + i) = 0x00#8) ∧
      (∀ a, a < regionBase rg ∨ regionBase rg + 4 * wordsFor bytes.length ≤ a → t.byteAt a = s.byteAt a) ∧
      t = { s with mem := t.mem, host := { s.host with pc := wordsFor bytes.length } }

/-! ## Registers, interrupt and reset -/

/-- R27, R28, R32: the STATUS register, bit by bit. -/
def Obligations.StatusRegisterFields : Prop :=
  ∀ s : State,
    (s.statusWord.getLsbD 0 = true ↔ s.phase ≠ .idle) ∧ s.statusWord.getLsbD 1 = s.status.done ∧
    s.statusWord.getLsbD 2 = s.status.err ∧ s.statusWord.getLsbD 3 = s.status.busyWr ∧
    (s.statusWord.getLsbD 4 = true ↔ s.phase = .init) ∧ s.statusWord.extractLsb' 5 3 = 0#3 ∧
    s.statusWord.extractLsb' 8 8 = s.status.errCode ∧ s.statusWord.extractLsb' 16 8 = s.status.lastOp ∧
    s.statusWord.extractLsb' 24 8 = 0#8 ∧ hostRead s 0x0010 = (s.statusWord, s)

/-- R23, R24: ID and PARAM are constants of the configuration, read in every phase. -/
def Obligations.IdAndParamAreConstant : Prop :=
  (∀ s : State, hostRead s 0x0000 = (0x534D4601#32, s) ∧ hostRead s 0x0004 = (paramWord Config.device, s)) ∧
    (∀ (s : State) (v : Word), s.phase = .idle → hostWrite s 0x0000 v = .next s ∧ hostWrite s 0x0004 v = .next s) ∧
    ∀ p : Config, ((paramWord p).extractLsb' 0 6).toNat = p.rows ∧ (paramWord p).extractLsb' 6 2 = 0#2 ∧
      ((paramWord p).extractLsb' 8 6).toNat = p.gw ∧ (paramWord p).extractLsb' 14 2 = 0#2 ∧
      ((paramWord p).extractLsb' 16 9).toNat = p.maxCols ∧ (paramWord p).extractLsb' 25 7 = 0#7

/-- R48, R166, R167: `irq` is DONE AND IRQ_EN; it rises with a completion when enabled and with the enable when DONE; it falls with
acceptance, CLEAR, reset and the enable; the end of INIT does not raise it. -/
def Obligations.InterruptFollowsDoneAndEnable : Prop :=
  (∀ s : State, s.irq = (s.status.done && s.irqEn)) ∧
    (∀ (i : Instr) (s t : State), i ≠ .clear → exec i s = .next t → t.irq = s.irqEn) ∧
    (∀ s t : State, exec .clear s = .next t → t.irq = false) ∧
    (∀ (s t : State) (v : Word), s.phase = .idle → hostWrite s cmdOffset v = .next t → t.irq = false) ∧
    (∀ (s t : State) (v : Word), s.phase = .idle → hostWrite s 0x0008 v = .next t →
      t.irq = (s.status.done && v.getLsbD 0)) ∧
    (∀ s : State, (assertReset s).irq = false) ∧ (∀ s : State, (endInit s).irq = false)

/-- R55: the state at reset, and the state when INIT ends. That no host acts meanwhile, and the count of steps, are the model's choice
(assumptions 1, 3, 5). -/
def Obligations.ResetLeavesRegistersZero : Prop :=
  registersAtReset State.reset ∧ State.reset.statusWord = 0x00000011#32 ∧ State.reset.irq = false ∧
    State.reset.phase = .init ∧
    ∃ t, Sys2Proof.core.run (Config.latency 0 + 1) State.reset = .next t ∧ t.phase = .idle ∧ registersAtReset t ∧
      t.statusWord = 0x00000000#32 ∧ t.irq = false ∧ (∀ a, t.byteAt a = 0x00#8)

/-- R180: reset takes effect whatever is running: every register at its reset value, the phase INIT, and the running command gone;
the host is no part of it. That the pulse is a turn of the host is the model's choice (assumption 14). -/
def Obligations.ResetAbandonsTheRunningCommand : Prop :=
  ∀ s : State, s.hostRuns .pulseRst → ∃ t, step s = .next t ∧ registersAtReset t ∧ t.statusWord = 0x00000011#32 ∧
    t.phase = .init ∧ t.irq = false ∧ t.host = { s.host with pc := s.host.pc + 1 }

/-- R181: the engine step that ends INIT. -/
def Obligations.InitEndsWithEverythingCleared : Prop :=
  ∀ s : State, s.phase = .init → s.wait = 0 → ∃ t, step s = .next t ∧ t.phase = .idle ∧ (∀ a, t.byteAt a = 0x00#8) ∧
    t.statusWord = (if s.status.busyWr then 0x00000008#32 else 0x00000000#32) ∧
    t = { s with
      mem := t.mem
      status := { done := false, err := false, errCode := 0x00#8, busyWr := s.status.busyWr, lastOp := 0x00#8 }
      phase := .idle }

/-! ## The whole machine -/

/-- The invariants of Safety.lean hold right after reset. The regions' bytes and the host's variables then are the model's choice
(assumptions 4, 5). -/
def Obligations.InvariantHoldsAtReset : Prop := State.reset.Inv

/-- R45, R46: every step keeps the memory canonical, the bytes outside the storage 0, and the PIX words within their rows. -/
def Obligations.EveryStepKeepsTheMemoryInvariant : Prop :=
  ∀ s t : State, MemoryInv Config.device s → step s = .next t → MemoryInv Config.device t

/-- R29, R30, R33, R160: every step keeps STATUS consistent. -/
def Obligations.EveryStepKeepsTheStatusInvariant : Prop :=
  ∀ s t : State, StatusInv s → step s = .next t → StatusInv t

/-- R39, R55, R68: every step keeps the registers at their reset values during INIT, and COLOR_LEN within the buffer. -/
def Obligations.EveryStepKeepsTheRegisterInvariant : Prop :=
  ∀ s t : State, RegisterInv Config.device s → step s = .next t → RegisterInv Config.device t

/-- R85: every step keeps the host's variables in their canonical form. That form is the model's own: a variable not listed is 0
(assumption 5). -/
def Obligations.EveryStepKeepsTheHostVariables : Prop :=
  ∀ s t : State, Table.Wf s.host.vars → step s = .next t → Table.Wf t.host.vars

/-- R31, R183: a step that clears BUSYWR is a CLEAR issued while IDLE, or reset. -/
def Obligations.OnlyClearAndResetClearBusyWrite : Prop :=
  ∀ s t : State, step s = .next t → s.status.busyWr = true → t.status.busyWr = false →
    s.hostRuns .pulseRst ∨ (s.phase = .idle ∧ s.hostRuns (.write 32 cmdOffset (encode .clear)))

/-- R46, R77, R78, R55: no step but ENCODE's completion, the end of INIT and a reset changes a byte of COLOR_BUF or COLOR_LEN. A reset
is an exception for both: it makes COLOR_LEN 0 and leaves the regions unspecified (R55; what they hold then is the model's choice,
assumption 4). -/
def Obligations.ColourBufferChangesOnlyByEncode : Prop :=
  ∀ s t : State, step s = .next t → ¬ s.engineCompletes .encode → ¬ (s.phase = .init ∧ s.wait = 0) → ¬ s.hostRuns .pulseRst →
    (∀ a, 0x8000 ≤ a → t.byteAt a = s.byteAt a) ∧ t.colorLen = s.colorLen

/-- R43, R77, R55: no step but SEAL's completion, the end of INIT and a reset changes a byte of BLOCK_OUT. A reset leaves the regions
unspecified (R55; what they hold then is the model's choice, assumption 4). -/
def Obligations.BlockOutChangesOnlyBySeal : Prop :=
  ∀ s t : State, step s = .next t → ¬ s.engineCompletes .sealBlock → ¬ (s.phase = .init ∧ s.wait = 0) →
    ¬ s.hostRuns .pulseRst → ∀ a, 0x0070 ≤ a → a < 0x0080 → t.byteAt a = s.byteAt a

/-- R97, R99: an accepted command runs to completion whatever the host does but reset, in the steps its latency gives; and what it
leaves is its meaning on the state at acceptance: the host's writes meanwhile change nothing but BUSYWR. The count of
steps is the model's schedule (assumption 1). -/
def Obligations.AcceptedCommandCompletesOnItsOperands : Prop :=
  ∀ (s : State) (d : Running), s.phase = .busy d → neverResets s →
    (∀ k t, k ≤ s.wait → Sys2Proof.core.run k s = .next t → t.phase = .busy d) ∧
    (∀ t, Sys2Proof.core.run (s.wait + 1) s = .next t →
      t.phase = .idle ∧ t.status.done = true ∧
      ∃ u, (match d.instr? with | some i => exec i s | none => .next (raiseError .illegalCmd s)) = .next u ∧
        t = { u with
          status := { u.status with busyWr := t.status.busyWr }
          wait := 0
          draws := t.draws
          host := t.host }) ∧
    ((∀ stmt ∈ s.host.prog, stmt.wellFormed = true ∧ ∀ x m v, stmt ≠ .check x m v) →
      ∃ t, Sys2Proof.core.run (s.wait + 1) s = .next t)

/-- R181, R183: reset reaches IDLE through INIT, with every region cleared, whatever the host does but reset. The count of steps is
the model's schedule (assumptions 1, 3). -/
def Obligations.InitReachesIdle : Prop :=
  ∀ s : State, s.phase = .init → neverResets s →
    (∀ t, Sys2Proof.core.run (s.wait + 1) s = .next t →
      t.phase = .idle ∧ (∀ a, t.byteAt a = 0x00#8) ∧ (registersAtReset s → registersAtReset t)) ∧
    ((∀ stmt ∈ s.host.prog, stmt.wellFormed = true ∧ ∀ x m v, stmt ≠ .check x m v) →
      ∃ t, Sys2Proof.core.run (s.wait + 1) s = .next t)
end

