-- ==== Sys2Proof/Laws/State.lean ====
section
/-! SUPPORT. One lemma per field per update of the state: what each shared operation leaves in each field. -/

namespace Sys2Proof.Machine

/-! `accept`. -/

@[simp] theorem accept_irqEn (v : Word) (d : Running) (s : State) :
    (accept v d s).irqEn = s.irqEn := rfl
@[simp] theorem accept_status (v : Word) (d : Running) (s : State) :
    (accept v d s).status = { s.status with done := false, err := false, errCode := 0#8, lastOp := opField v } := rfl
@[simp] theorem accept_fgColor (v : Word) (d : Running) (s : State) :
    (accept v d s).fgColor = s.fgColor := rfl
@[simp] theorem accept_bgColor (v : Word) (d : Running) (s : State) :
    (accept v d s).bgColor = s.bgColor := rfl
@[simp] theorem accept_decoColor (v : Word) (d : Running) (s : State) :
    (accept v d s).decoColor = s.decoColor := rfl
@[simp] theorem accept_style (v : Word) (d : Running) (s : State) :
    (accept v d s).style = s.style := rfl
@[simp] theorem accept_sep (v : Word) (d : Running) (s : State) :
    (accept v d s).sep = s.sep := rfl
@[simp] theorem accept_opLen (v : Word) (d : Running) (s : State) :
    (accept v d s).opLen = s.opLen := rfl
@[simp] theorem accept_argLen (v : Word) (d : Running) (s : State) :
    (accept v d s).argLen = s.argLen := rfl
@[simp] theorem accept_textLen (v : Word) (d : Running) (s : State) :
    (accept v d s).textLen = s.textLen := rfl
@[simp] theorem accept_pixCols (v : Word) (d : Running) (s : State) :
    (accept v d s).pixCols = s.pixCols := rfl
@[simp] theorem accept_colorLen (v : Word) (d : Running) (s : State) :
    (accept v d s).colorLen = s.colorLen := rfl
@[simp] theorem accept_mem (v : Word) (d : Running) (s : State) :
    (accept v d s).mem = s.mem := rfl
@[simp] theorem accept_phase (v : Word) (d : Running) (s : State) :
    (accept v d s).phase = .busy d := rfl
@[simp] theorem accept_wait (v : Word) (d : Running) (s : State) :
    (accept v d s).wait = Config.latency s.draws := rfl
@[simp] theorem accept_draws (v : Word) (d : Running) (s : State) :
    (accept v d s).draws = s.draws + 1 := rfl
@[simp] theorem accept_host (v : Word) (d : Running) (s : State) :
    (accept v d s).host = s.host := rfl

/-! `complete`. -/

@[simp] theorem complete_irqEn (s : State) :
    (complete s).irqEn = s.irqEn := rfl
@[simp] theorem complete_status (s : State) :
    (complete s).status = { s.status with err := false, errCode := 0#8, done := true } := rfl
@[simp] theorem complete_fgColor (s : State) :
    (complete s).fgColor = s.fgColor := rfl
@[simp] theorem complete_bgColor (s : State) :
    (complete s).bgColor = s.bgColor := rfl
@[simp] theorem complete_decoColor (s : State) :
    (complete s).decoColor = s.decoColor := rfl
@[simp] theorem complete_style (s : State) :
    (complete s).style = s.style := rfl
@[simp] theorem complete_sep (s : State) :
    (complete s).sep = s.sep := rfl
@[simp] theorem complete_opLen (s : State) :
    (complete s).opLen = s.opLen := rfl
@[simp] theorem complete_argLen (s : State) :
    (complete s).argLen = s.argLen := rfl
@[simp] theorem complete_textLen (s : State) :
    (complete s).textLen = s.textLen := rfl
@[simp] theorem complete_pixCols (s : State) :
    (complete s).pixCols = s.pixCols := rfl
@[simp] theorem complete_colorLen (s : State) :
    (complete s).colorLen = s.colorLen := rfl
@[simp] theorem complete_mem (s : State) :
    (complete s).mem = s.mem := rfl
@[simp] theorem complete_phase (s : State) :
    (complete s).phase = .idle := rfl
@[simp] theorem complete_wait (s : State) :
    (complete s).wait = s.wait := rfl
@[simp] theorem complete_draws (s : State) :
    (complete s).draws = s.draws := rfl
@[simp] theorem complete_host (s : State) :
    (complete s).host = s.host := rfl

/-! `raiseError`. -/

@[simp] theorem raiseError_irqEn (e : ErrorCode) (s : State) :
    (raiseError e s).irqEn = s.irqEn := rfl
@[simp] theorem raiseError_status (e : ErrorCode) (s : State) :
    (raiseError e s).status = { s.status with err := true, errCode := e.code, done := true } := rfl
@[simp] theorem raiseError_fgColor (e : ErrorCode) (s : State) :
    (raiseError e s).fgColor = s.fgColor := rfl
@[simp] theorem raiseError_bgColor (e : ErrorCode) (s : State) :
    (raiseError e s).bgColor = s.bgColor := rfl
@[simp] theorem raiseError_decoColor (e : ErrorCode) (s : State) :
    (raiseError e s).decoColor = s.decoColor := rfl
@[simp] theorem raiseError_style (e : ErrorCode) (s : State) :
    (raiseError e s).style = s.style := rfl
@[simp] theorem raiseError_sep (e : ErrorCode) (s : State) :
    (raiseError e s).sep = s.sep := rfl
@[simp] theorem raiseError_opLen (e : ErrorCode) (s : State) :
    (raiseError e s).opLen = s.opLen := rfl
@[simp] theorem raiseError_argLen (e : ErrorCode) (s : State) :
    (raiseError e s).argLen = s.argLen := rfl
@[simp] theorem raiseError_textLen (e : ErrorCode) (s : State) :
    (raiseError e s).textLen = s.textLen := rfl
@[simp] theorem raiseError_pixCols (e : ErrorCode) (s : State) :
    (raiseError e s).pixCols = s.pixCols := rfl
@[simp] theorem raiseError_colorLen (e : ErrorCode) (s : State) :
    (raiseError e s).colorLen = s.colorLen := rfl
@[simp] theorem raiseError_mem (e : ErrorCode) (s : State) :
    (raiseError e s).mem = s.mem := rfl
@[simp] theorem raiseError_phase (e : ErrorCode) (s : State) :
    (raiseError e s).phase = .idle := rfl
@[simp] theorem raiseError_wait (e : ErrorCode) (s : State) :
    (raiseError e s).wait = s.wait := rfl
@[simp] theorem raiseError_draws (e : ErrorCode) (s : State) :
    (raiseError e s).draws = s.draws := rfl
@[simp] theorem raiseError_host (e : ErrorCode) (s : State) :
    (raiseError e s).host = s.host := rfl

/-! `clearStatus`. -/

@[simp] theorem clearStatus_irqEn (s : State) :
    (clearStatus s).irqEn = s.irqEn := rfl
@[simp] theorem clearStatus_status (s : State) :
    (clearStatus s).status = Status.zero := rfl
@[simp] theorem clearStatus_fgColor (s : State) :
    (clearStatus s).fgColor = s.fgColor := rfl
@[simp] theorem clearStatus_bgColor (s : State) :
    (clearStatus s).bgColor = s.bgColor := rfl
@[simp] theorem clearStatus_decoColor (s : State) :
    (clearStatus s).decoColor = s.decoColor := rfl
@[simp] theorem clearStatus_style (s : State) :
    (clearStatus s).style = s.style := rfl
@[simp] theorem clearStatus_sep (s : State) :
    (clearStatus s).sep = s.sep := rfl
@[simp] theorem clearStatus_opLen (s : State) :
    (clearStatus s).opLen = s.opLen := rfl
@[simp] theorem clearStatus_argLen (s : State) :
    (clearStatus s).argLen = s.argLen := rfl
@[simp] theorem clearStatus_textLen (s : State) :
    (clearStatus s).textLen = s.textLen := rfl
@[simp] theorem clearStatus_pixCols (s : State) :
    (clearStatus s).pixCols = s.pixCols := rfl
@[simp] theorem clearStatus_colorLen (s : State) :
    (clearStatus s).colorLen = s.colorLen := rfl
@[simp] theorem clearStatus_mem (s : State) :
    (clearStatus s).mem = s.mem := rfl
@[simp] theorem clearStatus_phase (s : State) :
    (clearStatus s).phase = s.phase := rfl
@[simp] theorem clearStatus_wait (s : State) :
    (clearStatus s).wait = s.wait := rfl
@[simp] theorem clearStatus_draws (s : State) :
    (clearStatus s).draws = s.draws := rfl
@[simp] theorem clearStatus_host (s : State) :
    (clearStatus s).host = s.host := rfl

/-! `assertReset`. -/

@[simp] theorem assertReset_irqEn (s : State) :
    (assertReset s).irqEn = State.reset.irqEn := rfl
@[simp] theorem assertReset_status (s : State) :
    (assertReset s).status = Status.zero := rfl
@[simp] theorem assertReset_fgColor (s : State) :
    (assertReset s).fgColor = State.reset.fgColor := rfl
@[simp] theorem assertReset_bgColor (s : State) :
    (assertReset s).bgColor = State.reset.bgColor := rfl
@[simp] theorem assertReset_decoColor (s : State) :
    (assertReset s).decoColor = State.reset.decoColor := rfl
@[simp] theorem assertReset_style (s : State) :
    (assertReset s).style = State.reset.style := rfl
@[simp] theorem assertReset_sep (s : State) :
    (assertReset s).sep = State.reset.sep := rfl
@[simp] theorem assertReset_opLen (s : State) :
    (assertReset s).opLen = State.reset.opLen := rfl
@[simp] theorem assertReset_argLen (s : State) :
    (assertReset s).argLen = State.reset.argLen := rfl
@[simp] theorem assertReset_textLen (s : State) :
    (assertReset s).textLen = State.reset.textLen := rfl
@[simp] theorem assertReset_pixCols (s : State) :
    (assertReset s).pixCols = State.reset.pixCols := rfl
@[simp] theorem assertReset_colorLen (s : State) :
    (assertReset s).colorLen = State.reset.colorLen := rfl
@[simp] theorem assertReset_mem (s : State) :
    (assertReset s).mem = s.mem := rfl
@[simp] theorem assertReset_phase (s : State) :
    (assertReset s).phase = .init := rfl
@[simp] theorem assertReset_wait (s : State) :
    (assertReset s).wait = Config.latency s.draws := rfl
@[simp] theorem assertReset_draws (s : State) :
    (assertReset s).draws = s.draws + 1 := rfl
@[simp] theorem assertReset_host (s : State) :
    (assertReset s).host = s.host := rfl

/-! `endInit`. -/

@[simp] theorem endInit_irqEn (s : State) :
    (endInit s).irqEn = s.irqEn := rfl
@[simp] theorem endInit_status (s : State) :
    (endInit s).status = { Status.zero with busyWr := s.status.busyWr } := rfl
@[simp] theorem endInit_fgColor (s : State) :
    (endInit s).fgColor = s.fgColor := rfl
@[simp] theorem endInit_bgColor (s : State) :
    (endInit s).bgColor = s.bgColor := rfl
@[simp] theorem endInit_decoColor (s : State) :
    (endInit s).decoColor = s.decoColor := rfl
@[simp] theorem endInit_style (s : State) :
    (endInit s).style = s.style := rfl
@[simp] theorem endInit_sep (s : State) :
    (endInit s).sep = s.sep := rfl
@[simp] theorem endInit_opLen (s : State) :
    (endInit s).opLen = s.opLen := rfl
@[simp] theorem endInit_argLen (s : State) :
    (endInit s).argLen = s.argLen := rfl
@[simp] theorem endInit_textLen (s : State) :
    (endInit s).textLen = s.textLen := rfl
@[simp] theorem endInit_pixCols (s : State) :
    (endInit s).pixCols = s.pixCols := rfl
@[simp] theorem endInit_colorLen (s : State) :
    (endInit s).colorLen = s.colorLen := rfl
@[simp] theorem endInit_mem (s : State) :
    (endInit s).mem = [] := rfl
@[simp] theorem endInit_phase (s : State) :
    (endInit s).phase = .idle := rfl
@[simp] theorem endInit_wait (s : State) :
    (endInit s).wait = s.wait := rfl
@[simp] theorem endInit_draws (s : State) :
    (endInit s).draws = s.draws := rfl
@[simp] theorem endInit_host (s : State) :
    (endInit s).host = s.host := rfl

/-! `hostGoto`. -/

@[simp] theorem hostGoto_irqEn (s : State) (k : Nat) :
    (s.hostGoto k).irqEn = s.irqEn := rfl
@[simp] theorem hostGoto_status (s : State) (k : Nat) :
    (s.hostGoto k).status = s.status := rfl
@[simp] theorem hostGoto_fgColor (s : State) (k : Nat) :
    (s.hostGoto k).fgColor = s.fgColor := rfl
@[simp] theorem hostGoto_bgColor (s : State) (k : Nat) :
    (s.hostGoto k).bgColor = s.bgColor := rfl
@[simp] theorem hostGoto_decoColor (s : State) (k : Nat) :
    (s.hostGoto k).decoColor = s.decoColor := rfl
@[simp] theorem hostGoto_style (s : State) (k : Nat) :
    (s.hostGoto k).style = s.style := rfl
@[simp] theorem hostGoto_sep (s : State) (k : Nat) :
    (s.hostGoto k).sep = s.sep := rfl
@[simp] theorem hostGoto_opLen (s : State) (k : Nat) :
    (s.hostGoto k).opLen = s.opLen := rfl
@[simp] theorem hostGoto_argLen (s : State) (k : Nat) :
    (s.hostGoto k).argLen = s.argLen := rfl
@[simp] theorem hostGoto_textLen (s : State) (k : Nat) :
    (s.hostGoto k).textLen = s.textLen := rfl
@[simp] theorem hostGoto_pixCols (s : State) (k : Nat) :
    (s.hostGoto k).pixCols = s.pixCols := rfl
@[simp] theorem hostGoto_colorLen (s : State) (k : Nat) :
    (s.hostGoto k).colorLen = s.colorLen := rfl
@[simp] theorem hostGoto_mem (s : State) (k : Nat) :
    (s.hostGoto k).mem = s.mem := rfl
@[simp] theorem hostGoto_phase (s : State) (k : Nat) :
    (s.hostGoto k).phase = s.phase := rfl
@[simp] theorem hostGoto_wait (s : State) (k : Nat) :
    (s.hostGoto k).wait = s.wait := rfl
@[simp] theorem hostGoto_draws (s : State) (k : Nat) :
    (s.hostGoto k).draws = s.draws := rfl
@[simp] theorem hostGoto_host (s : State) (k : Nat) :
    (s.hostGoto k).host = { s.host with pc := k } := rfl

/-! `hostAdvance`. -/

@[simp] theorem hostAdvance_irqEn (s : State) :
    (s.hostAdvance).irqEn = s.irqEn := rfl
@[simp] theorem hostAdvance_status (s : State) :
    (s.hostAdvance).status = s.status := rfl
@[simp] theorem hostAdvance_fgColor (s : State) :
    (s.hostAdvance).fgColor = s.fgColor := rfl
@[simp] theorem hostAdvance_bgColor (s : State) :
    (s.hostAdvance).bgColor = s.bgColor := rfl
@[simp] theorem hostAdvance_decoColor (s : State) :
    (s.hostAdvance).decoColor = s.decoColor := rfl
@[simp] theorem hostAdvance_style (s : State) :
    (s.hostAdvance).style = s.style := rfl
@[simp] theorem hostAdvance_sep (s : State) :
    (s.hostAdvance).sep = s.sep := rfl
@[simp] theorem hostAdvance_opLen (s : State) :
    (s.hostAdvance).opLen = s.opLen := rfl
@[simp] theorem hostAdvance_argLen (s : State) :
    (s.hostAdvance).argLen = s.argLen := rfl
@[simp] theorem hostAdvance_textLen (s : State) :
    (s.hostAdvance).textLen = s.textLen := rfl
@[simp] theorem hostAdvance_pixCols (s : State) :
    (s.hostAdvance).pixCols = s.pixCols := rfl
@[simp] theorem hostAdvance_colorLen (s : State) :
    (s.hostAdvance).colorLen = s.colorLen := rfl
@[simp] theorem hostAdvance_mem (s : State) :
    (s.hostAdvance).mem = s.mem := rfl
@[simp] theorem hostAdvance_phase (s : State) :
    (s.hostAdvance).phase = s.phase := rfl
@[simp] theorem hostAdvance_wait (s : State) :
    (s.hostAdvance).wait = s.wait := rfl
@[simp] theorem hostAdvance_draws (s : State) :
    (s.hostAdvance).draws = s.draws := rfl
@[simp] theorem hostAdvance_host (s : State) :
    (s.hostAdvance).host = { s.host with pc := s.host.pc + 1 } := rfl

/-! `setHostVar`. -/

@[simp] theorem setHostVar_irqEn (s : State) (x : Nat) (v : Word) :
    (s.setHostVar x v).irqEn = s.irqEn := rfl
@[simp] theorem setHostVar_status (s : State) (x : Nat) (v : Word) :
    (s.setHostVar x v).status = s.status := rfl
@[simp] theorem setHostVar_fgColor (s : State) (x : Nat) (v : Word) :
    (s.setHostVar x v).fgColor = s.fgColor := rfl
@[simp] theorem setHostVar_bgColor (s : State) (x : Nat) (v : Word) :
    (s.setHostVar x v).bgColor = s.bgColor := rfl
@[simp] theorem setHostVar_decoColor (s : State) (x : Nat) (v : Word) :
    (s.setHostVar x v).decoColor = s.decoColor := rfl
@[simp] theorem setHostVar_style (s : State) (x : Nat) (v : Word) :
    (s.setHostVar x v).style = s.style := rfl
@[simp] theorem setHostVar_sep (s : State) (x : Nat) (v : Word) :
    (s.setHostVar x v).sep = s.sep := rfl
@[simp] theorem setHostVar_opLen (s : State) (x : Nat) (v : Word) :
    (s.setHostVar x v).opLen = s.opLen := rfl
@[simp] theorem setHostVar_argLen (s : State) (x : Nat) (v : Word) :
    (s.setHostVar x v).argLen = s.argLen := rfl
@[simp] theorem setHostVar_textLen (s : State) (x : Nat) (v : Word) :
    (s.setHostVar x v).textLen = s.textLen := rfl
@[simp] theorem setHostVar_pixCols (s : State) (x : Nat) (v : Word) :
    (s.setHostVar x v).pixCols = s.pixCols := rfl
@[simp] theorem setHostVar_colorLen (s : State) (x : Nat) (v : Word) :
    (s.setHostVar x v).colorLen = s.colorLen := rfl
@[simp] theorem setHostVar_mem (s : State) (x : Nat) (v : Word) :
    (s.setHostVar x v).mem = s.mem := rfl
@[simp] theorem setHostVar_phase (s : State) (x : Nat) (v : Word) :
    (s.setHostVar x v).phase = s.phase := rfl
@[simp] theorem setHostVar_wait (s : State) (x : Nat) (v : Word) :
    (s.setHostVar x v).wait = s.wait := rfl
@[simp] theorem setHostVar_draws (s : State) (x : Nat) (v : Word) :
    (s.setHostVar x v).draws = s.draws := rfl
@[simp] theorem setHostVar_host (s : State) (x : Nat) (v : Word) :
    (s.setHostVar x v).host = { s.host with vars := Table.write s.host.vars x v } := rfl

/-! `withHostProgram`. -/

@[simp] theorem withHostProgram_irqEn (s : State) (prog : List HostStmt) :
    (s.withHostProgram prog).irqEn = s.irqEn := rfl
@[simp] theorem withHostProgram_status (s : State) (prog : List HostStmt) :
    (s.withHostProgram prog).status = s.status := rfl
@[simp] theorem withHostProgram_fgColor (s : State) (prog : List HostStmt) :
    (s.withHostProgram prog).fgColor = s.fgColor := rfl
@[simp] theorem withHostProgram_bgColor (s : State) (prog : List HostStmt) :
    (s.withHostProgram prog).bgColor = s.bgColor := rfl
@[simp] theorem withHostProgram_decoColor (s : State) (prog : List HostStmt) :
    (s.withHostProgram prog).decoColor = s.decoColor := rfl
@[simp] theorem withHostProgram_style (s : State) (prog : List HostStmt) :
    (s.withHostProgram prog).style = s.style := rfl
@[simp] theorem withHostProgram_sep (s : State) (prog : List HostStmt) :
    (s.withHostProgram prog).sep = s.sep := rfl
@[simp] theorem withHostProgram_opLen (s : State) (prog : List HostStmt) :
    (s.withHostProgram prog).opLen = s.opLen := rfl
@[simp] theorem withHostProgram_argLen (s : State) (prog : List HostStmt) :
    (s.withHostProgram prog).argLen = s.argLen := rfl
@[simp] theorem withHostProgram_textLen (s : State) (prog : List HostStmt) :
    (s.withHostProgram prog).textLen = s.textLen := rfl
@[simp] theorem withHostProgram_pixCols (s : State) (prog : List HostStmt) :
    (s.withHostProgram prog).pixCols = s.pixCols := rfl
@[simp] theorem withHostProgram_colorLen (s : State) (prog : List HostStmt) :
    (s.withHostProgram prog).colorLen = s.colorLen := rfl
@[simp] theorem withHostProgram_mem (s : State) (prog : List HostStmt) :
    (s.withHostProgram prog).mem = s.mem := rfl
@[simp] theorem withHostProgram_phase (s : State) (prog : List HostStmt) :
    (s.withHostProgram prog).phase = s.phase := rfl
@[simp] theorem withHostProgram_wait (s : State) (prog : List HostStmt) :
    (s.withHostProgram prog).wait = s.wait := rfl
@[simp] theorem withHostProgram_draws (s : State) (prog : List HostStmt) :
    (s.withHostProgram prog).draws = s.draws := rfl
@[simp] theorem withHostProgram_host (s : State) (prog : List HostStmt) :
    (s.withHostProgram prog).host = { s.host with prog := prog, pc := 0 } := rfl

/-! The views of the state that read only some fields. -/

@[simp] theorem byteAt_mk (irqEn : Bool) (status : Status) (fgColor bgColor decoColor : Colour) (style : BitVec 3) (sep : Bool)
    (opLen argLen : BitVec 5) (textLen : BitVec 8) (pixCols : BitVec 9) (colorLen : BitVec 16) (mem : Memory) (phase : Phase)
    (wait draws : Nat) (host : HostAgent) (a : Nat) :
    (State.mk irqEn status fgColor bgColor decoColor style sep opLen argLen textLen pixCols colorLen mem phase wait draws
      host).byteAt a = mem.read a := rfl

/-- A byte of the window's storage is a byte of the memory. -/
theorem byteAt_eq (s : State) (a : Nat) : s.byteAt a = s.mem.read a := rfl

/-- Two states with the same memory read the same bytes. -/
theorem byteAt_congr {s t : State} (h : t.mem = s.mem) (a : Nat) : t.byteAt a = s.byteAt a := by
  rw [byteAt_eq, byteAt_eq, h]

/-- A PIX column depends on the memory alone. -/
theorem pixColumn_congr {s t : State} (p : Config) (h : t.mem = s.mem) (c : Nat) : t.pixColumn p c = s.pixColumn p c := by
  simp [State.pixColumn, h]

end Sys2Proof.Machine
end

