-- ==== Sys2Proof/Laws/Table.lean ====
section
/-! SUPPORT. The laws of sparse tables and of the window's memory: a read after a write to the same key, every other key kept, the
canonical form kept, and the same for runs of stores. -/

namespace Sys2Proof.Machine

section Table
variable {w : Nat}

@[simp] theorem Table.read_nil (a : Nat) : Table.read ([] : List (Nat × BitVec w)) a = 0#w := rfl

theorem Table.read_cons (b : Nat) (x : BitVec w) (t : List (Nat × BitVec w)) (a : Nat) :
    Table.read ((b, x) :: t) a = if a = b then x else Table.read t a := rfl

theorem Table.wf_nil : Table.Wf ([] : List (Nat × BitVec w)) := by simp [Table.Wf]

theorem Table.wf_cons {b : Nat} {x : BitVec w} {t : List (Nat × BitVec w)} :
    Table.Wf ((b, x) :: t) ↔ (∀ e ∈ t, b < e.1) ∧ x ≠ 0#w ∧ Table.Wf t := by
  simp only [Table.Wf, List.pairwise_cons, List.forall_mem_cons]; tauto

/-- A key below every listed key reads 0. -/
theorem Table.read_eq_zero_of_lt {t : List (Nat × BitVec w)} {a : Nat} (h : ∀ e ∈ t, a < e.1) : Table.read t a = 0#w := by
  induction t with
  | nil => rfl
  | cons e t ih =>
    obtain ⟨b, x⟩ := e
    have hb : a < b := h (b, x) (by simp)
    rw [Table.read_cons, if_neg (by omega)]
    exact ih fun e he => h e (by simp [he])

/-- Every key but the written one reads as before, in any table. -/
theorem Table.read_write_other (t : List (Nat × BitVec w)) (a : Nat) (v : BitVec w) {c : Nat} (h : c ≠ a) :
    Table.read (Table.write t a v) c = Table.read t c := by
  induction t with
  | nil => by_cases hv : v = 0#w <;> simp [Table.write, hv, Table.read_cons, h]
  | cons e t ih =>
    obtain ⟨b, x⟩ := e
    simp only [Table.write]
    split_ifs with h1 h2 h3 h4 <;> simp_all [Table.read_cons]

/-- The written key reads the value written, in a table in canonical form. -/
theorem Table.read_write_self {t : List (Nat × BitVec w)} (ht : Table.Wf t) (a : Nat) (v : BitVec w) :
    Table.read (Table.write t a v) a = v := by
  induction t with
  | nil => by_cases hv : v = 0#w <;> simp [Table.write, hv, Table.read_cons]
  | cons e t ih =>
    obtain ⟨b, x⟩ := e
    obtain ⟨hlt, hx, ht⟩ := Table.wf_cons.1 ht
    simp only [Table.write]
    split_ifs with h1 h2 h3 h4
    · subst h2
      exact Table.read_eq_zero_of_lt fun e he => by
        rcases List.mem_cons.1 he with rfl | he
        · exact h1
        · exact lt_trans h1 (hlt e he)
    · simp [Table.read_cons]
    · subst h3 h4; exact Table.read_eq_zero_of_lt hlt
    · simp [Table.read_cons]
    · rw [Table.read_cons, if_neg h3]; exact ih ht

theorem Table.read_write {t : List (Nat × BitVec w)} (ht : Table.Wf t) (a c : Nat) (v : BitVec w) :
    Table.read (Table.write t a v) c = if c = a then v else Table.read t c := by
  by_cases h : c = a
  · subst h; simp [Table.read_write_self ht]
  · simp [h, Table.read_write_other t a v h]

/-- A key of a written table is a key of the table or the one written. -/
theorem Table.mem_write {t : List (Nat × BitVec w)} {a : Nat} {v : BitVec w} {e : Nat × BitVec w}
    (h : e ∈ Table.write t a v) : e = (a, v) ∨ e ∈ t := by
  induction t with
  | nil =>
    simp only [Table.write] at h
    split_ifs at h <;> simp_all
  | cons d t ih =>
    obtain ⟨b, x⟩ := d
    simp only [Table.write] at h
    split_ifs at h <;> simp only [List.mem_cons] at h ⊢
    · exact .inr h
    · tauto
    · tauto
    · tauto
    · rcases h with h | h
      · tauto
      · rcases ih h with h | h <;> tauto

/-- A write keeps the canonical form. -/
theorem Table.write_wf {t : List (Nat × BitVec w)} (ht : Table.Wf t) (a : Nat) (v : BitVec w) :
    Table.Wf (Table.write t a v) := by
  induction t with
  | nil =>
    by_cases hv : v = 0#w
    · simp [Table.write, hv, Table.Wf]
    · simp [Table.write, hv, Table.Wf]
  | cons e t ih =>
    obtain ⟨b, x⟩ := e
    obtain ⟨hlt, hx, hwf⟩ := Table.wf_cons.1 ht
    simp only [Table.write]
    split_ifs with h1 h2 h3 h4
    · exact ht
    · refine Table.wf_cons.2 ⟨fun e he => ?_, h2, ht⟩
      rcases List.mem_cons.1 he with rfl | he
      · exact h1
      · exact lt_trans h1 (hlt e he)
    · exact hwf
    · subst h3; exact Table.wf_cons.2 ⟨hlt, h4, hwf⟩
    · refine Table.wf_cons.2 ⟨fun e he => ?_, hx, ih hwf⟩
      rcases Table.mem_write he with rfl | he
      · exact lt_of_le_of_ne (Nat.not_lt.1 h1) (Ne.symm h3)
      · exact hlt e he

/-- Two tables in canonical form that read the same are the same: equal memories are equal data. -/
theorem Table.ext_of_wf {t u : List (Nat × BitVec w)} (ht : Table.Wf t) (hu : Table.Wf u)
    (h : ∀ a, Table.read t a = Table.read u a) : t = u := by
  induction t generalizing u with
  | nil =>
    cases u with
    | nil => rfl
    | cons f u =>
      obtain ⟨c, y⟩ := f
      exact absurd (by simpa [Table.read_cons] using (h c).symm) (Table.wf_cons.1 hu).2.1
  | cons e t ih =>
    obtain ⟨b, x⟩ := e
    obtain ⟨hlt, hx, hwf⟩ := Table.wf_cons.1 ht
    cases u with
    | nil => exact absurd (by simpa [Table.read_cons] using h b) hx
    | cons f u =>
      obtain ⟨c, y⟩ := f
      obtain ⟨hlt', hy, hwf'⟩ := Table.wf_cons.1 hu
      have hbc : b = c := by
        rcases lt_trichotomy b c with hbc | hbc | hbc
        · have := h b
          rw [Table.read_cons, if_pos rfl, Table.read_cons, if_neg (by omega),
            Table.read_eq_zero_of_lt fun e he => lt_trans hbc (hlt' e he)] at this
          exact absurd this hx
        · exact hbc
        · have := h c
          rw [Table.read_cons, if_neg (by omega), Table.read_cons, if_pos rfl,
            Table.read_eq_zero_of_lt fun e he => lt_trans hbc (hlt e he)] at this
          exact absurd this.symm hy
      subst hbc
      have hxy : x = y := by simpa [Table.read_cons] using h b
      subst hxy
      congr 1
      refine ih hwf hwf' fun a => ?_
      by_cases hab : a = b
      · subst hab; rw [Table.read_eq_zero_of_lt hlt, Table.read_eq_zero_of_lt hlt']
      · simpa [Table.read_cons, hab] using h a

end Table

/-! The window's memory. -/

@[simp] theorem Memory.read_nil (a : Nat) : Memory.read [] a = 0#8 := rfl

theorem Memory.wf_nil : Memory.wf [] := Table.wf_nil

theorem Memory.read_write {m : Memory} (hm : Memory.wf m) (a c : Nat) (b : Byte) :
    (m.write a b).read c = if c = a then b else m.read c := Table.read_write hm a c b

theorem Memory.read_write_other (m : Memory) (a : Nat) (b : Byte) {c : Nat} (h : c ≠ a) :
    (m.write a b).read c = m.read c := Table.read_write_other m a b h

theorem Memory.write_wf {m : Memory} (hm : Memory.wf m) (a : Nat) (b : Byte) : Memory.wf (m.write a b) :=
  Table.write_wf hm a b

@[simp] theorem Memory.writeCells_nil (m : Memory) : m.writeCells [] = m := rfl

@[simp] theorem Memory.writeCells_cons (m : Memory) (c : Host.Cell) (cs : List Host.Cell) :
    m.writeCells (c :: cs) = (m.write c.1 c.2).writeCells cs := rfl

theorem Memory.writeCells_append (m : Memory) (cs ds : List Host.Cell) :
    m.writeCells (cs ++ ds) = (m.writeCells cs).writeCells ds := by simp [Memory.writeCells]

/-- A run of stores keeps the canonical form. -/
theorem Memory.writeCells_wf {m : Memory} (hm : Memory.wf m) (cs : List Host.Cell) : Memory.wf (m.writeCells cs) := by
  induction cs generalizing m with
  | nil => exact hm
  | cons c cs ih => exact ih (Memory.write_wf hm c.1 c.2)

/-- A run of stores leaves every byte at no stored offset as it was. -/
theorem Memory.read_writeCells_other (m : Memory) (cs : List Host.Cell) {a : Nat} (h : ∀ c ∈ cs, c.1 ≠ a) :
    (m.writeCells cs).read a = m.read a := by
  induction cs generalizing m with
  | nil => rfl
  | cons c cs ih =>
    rw [Memory.writeCells_cons, ih _ fun d hd => h d (by simp [hd]),
      Memory.read_write_other _ _ _ (Ne.symm (h c (by simp)))]

/-- After a run of stores whose stores to one offset all agree, a stored offset reads what was stored there. -/
theorem Memory.read_writeCells_mem {m : Memory} (hm : Memory.wf m) {cs : List Host.Cell} {a : Nat} {b : Byte}
    (hmem : (a, b) ∈ cs) (hfun : ∀ c ∈ cs, c.1 = a → c.2 = b) : (m.writeCells cs).read a = b := by
  induction cs generalizing m with
  | nil => simp at hmem
  | cons c cs ih =>
    rw [Memory.writeCells_cons]
    by_cases hin : (a, b) ∈ cs
    · exact ih (Memory.write_wf hm _ _) hin fun d hd => hfun d (by simp [hd])
    · have hc : c = (a, b) := by simpa [hin, eq_comm] using hmem
      subst hc
      rw [Memory.read_writeCells_other, Memory.read_write hm, if_pos rfl]
      intro d hd hda
      exact hin (by have := hfun d (by simp [hd]) hda; rw [← hda, ← this]; exact hd)

/-- After a run of stores, an offset reads its old byte or a byte stored to it. -/
theorem Memory.read_writeCells_cases {m : Memory} (hm : Memory.wf m) (cs : List Host.Cell) (a : Nat) :
    (m.writeCells cs).read a = m.read a ∨ (a, (m.writeCells cs).read a) ∈ cs := by
  induction cs generalizing m with
  | nil => exact .inl rfl
  | cons c cs ih =>
    rw [Memory.writeCells_cons]
    rcases ih (Memory.write_wf hm c.1 c.2) with h | h
    · by_cases hca : a = c.1
      · right; rw [h, Memory.read_write hm, if_pos hca, hca]; simp
      · left; rw [h, Memory.read_write_other _ _ _ hca]
    · right; simp [h]

/-! Byte runs. -/

theorem byteCells_length (a : Nat) (bs : List Byte) : (byteCells a bs).length = bs.length := by
  induction bs generalizing a with
  | nil => rfl
  | cons b bs ih => simp [byteCells, ih]

/-- What a byte run stores where. -/
theorem mem_byteCells {a : Nat} {bs : List Byte} {c : Host.Cell} :
    c ∈ byteCells a bs ↔ ∃ i, ∃ h : i < bs.length, c = (a + i, bs[i]) := by
  induction bs generalizing a with
  | nil => simp [byteCells]
  | cons b bs ih =>
    simp only [byteCells, List.mem_cons, ih]
    constructor
    · rintro (rfl | ⟨i, h, rfl⟩)
      · exact ⟨0, by simp, by simp⟩
      · exact ⟨i + 1, by simpa using h, by simp; omega⟩
    · rintro ⟨i, h, rfl⟩
      cases i with
      | zero => simp
      | succ i => exact .inr ⟨i, by simpa using h, by simp; omega⟩

/-- After a byte run is stored at `a`, byte `a + i` is the run's byte `i`. -/
theorem read_writeCells_byteCells {m : Memory} (hm : Memory.wf m) (a : Nat) (bs : List Byte) {i : Nat} (h : i < bs.length) :
    (m.writeCells (byteCells a bs)).read (a + i) = bs[i] := by
  refine Memory.read_writeCells_mem hm (mem_byteCells.2 ⟨i, h, rfl⟩) fun c hc hca => ?_
  obtain ⟨j, hj, rfl⟩ := mem_byteCells.1 hc
  have : j = i := by simp at hca; omega
  subst this; rfl

/-- A byte run stored at `a` leaves every byte outside it as it was. -/
theorem read_writeCells_byteCells_other (m : Memory) (a : Nat) (bs : List Byte) {c : Nat} (h : c < a ∨ a + bs.length ≤ c) :
    (m.writeCells (byteCells a bs)).read c = m.read c := by
  refine Memory.read_writeCells_other _ _ fun e he => ?_
  obtain ⟨i, hi, rfl⟩ := mem_byteCells.1 he
  simp only [ne_eq]; omega

/-! Words. -/

theorem getLsbD_wordOf (b0 b1 b2 b3 : Byte) (i : Nat) :
    (wordOf b0 b1 b2 b3).getLsbD i =
      if i < 8 then b0.getLsbD i else if i < 16 then b1.getLsbD (i - 8)
      else if i < 24 then b2.getLsbD (i - 16) else b3.getLsbD (i - 24) := by
  change BitVec.getLsbD (w := 8 + 8 + 8 + 8) (b3 ++ b2 ++ b1 ++ b0) i = _
  rw [BitVec.getLsbD_append, BitVec.getLsbD_append, BitVec.getLsbD_append]
  split_ifs <;> first | omega | rfl

theorem getLsbD_byteOf (v : Word) (j i : Nat) : (byteOf v j).getLsbD i = (decide (i < 8) && v.getLsbD (8 * j + i)) := by
  simp [byteOf]

/-- Byte `j` of a word made of four bytes. -/
theorem byteOf_wordOf (b0 b1 b2 b3 : Byte) :
    byteOf (wordOf b0 b1 b2 b3) 0 = b0 ∧ byteOf (wordOf b0 b1 b2 b3) 1 = b1 ∧
      byteOf (wordOf b0 b1 b2 b3) 2 = b2 ∧ byteOf (wordOf b0 b1 b2 b3) 3 = b3 := by
  refine ⟨?_, ?_, ?_, ?_⟩ <;> refine BitVec.eq_of_getLsbD_eq fun i hi => ?_ <;>
    rw [getLsbD_byteOf, getLsbD_wordOf] <;> simp only [hi, decide_true, Bool.true_and] <;> split_ifs <;>
    first | omega | (congr 1; omega)

/-- A word is its four bytes, the lowest first. -/
theorem wordOf_byteOf (v : Word) : wordOf (byteOf v 0) (byteOf v 1) (byteOf v 2) (byteOf v 3) = v := by
  refine BitVec.eq_of_getLsbD_eq fun i hi => ?_
  rw [getLsbD_wordOf]
  simp only [getLsbD_byteOf]
  split_ifs <;> (rw [decide_eq_true (by omega), Bool.true_and]; congr 1; omega)

/-- Bit `i` of a word read from memory is bit `i mod 8` of its byte `i div 8` (R64). -/
theorem getLsbD_readWord (m : Memory) (a i : Nat) (hi : i < 32) :
    (m.readWord a).getLsbD i = (m.read (a + i / 8)).getLsbD (i % 8) := by
  rw [Memory.readWord, getLsbD_wordOf]
  have h : i / 8 = 0 ∨ i / 8 = 1 ∨ i / 8 = 2 ∨ i / 8 = 3 := by omega
  rcases h with h | h | h | h <;> simp only [h] <;> split_ifs <;> first | omega | (congr 1; omega)

theorem wordCells_eq (a : Nat) (v : Word) :
    wordCells a v = [(a, byteOf v 0), (a + 1, byteOf v 1), (a + 2, byteOf v 2), (a + 3, byteOf v 3)] := by
  simp [wordCells, byteCells]

/-- After a word is stored at `a`, byte `a + j` is the word's byte `j` (R64). -/
theorem read_writeCells_wordCells {m : Memory} (hm : Memory.wf m) (a : Nat) (v : Word) {j : Nat} (h : j < 4) :
    (m.writeCells (wordCells a v)).read (a + j) = byteOf v j := by
  have := read_writeCells_byteCells hm a [byteOf v 0, byteOf v 1, byteOf v 2, byteOf v 3] (i := j) (by simpa using h)
  rw [wordCells, this]
  have : j = 0 ∨ j = 1 ∨ j = 2 ∨ j = 3 := by omega
  rcases this with rfl | rfl | rfl | rfl <;> rfl

/-- A word stored at `a` leaves every byte outside its four as it was. -/
theorem read_writeCells_wordCells_other (m : Memory) (a : Nat) (v : Word) {c : Nat} (h : c < a ∨ a + 4 ≤ c) :
    (m.writeCells (wordCells a v)).read c = m.read c :=
  read_writeCells_byteCells_other m a _ (by simpa using h)

/-- A word is read back as it was stored. -/
theorem readWord_writeCells_wordCells {m : Memory} (hm : Memory.wf m) (a : Nat) (v : Word) :
    (m.writeCells (wordCells a v)).readWord a = v := by
  have key := fun j (hj : j < 4) => read_writeCells_wordCells hm a v hj
  have key0 : (m.writeCells (wordCells a v)).read a = byteOf v 0 := key 0 (by omega)
  rw [Memory.readWord, key0, key 1 (by omega), key 2 (by omega), key 3 (by omega), wordOf_byteOf]

/-- A word that shares no byte with the word stored reads as before. -/
theorem readWord_writeCells_wordCells_other (m : Memory) (a : Nat) (v : Word) {c : Nat} (h : c + 4 ≤ a ∨ a + 4 ≤ c) :
    (m.writeCells (wordCells a v)).readWord c = m.readWord c := by
  simp only [Memory.readWord]
  rw [read_writeCells_wordCells_other, read_writeCells_wordCells_other, read_writeCells_wordCells_other,
    read_writeCells_wordCells_other] <;> omega

/-- What a word run stores where. -/
theorem mem_wordsCells {a : Nat} {vs : List Word} {c : Host.Cell} :
    c ∈ wordsCells a vs ↔ ∃ i, ∃ h : i < vs.length, ∃ j, j < 4 ∧ c = (a + 4 * i + j, byteOf vs[i] j) := by
  induction vs generalizing a with
  | nil => simp [wordsCells]
  | cons v vs ih =>
    simp only [wordsCells, List.mem_append, ih, wordCells_eq]
    constructor
    · rintro (h | ⟨i, h, j, hj, rfl⟩)
      · simp only [List.mem_cons, List.not_mem_nil, or_false] at h
        rcases h with rfl | rfl | rfl | rfl
        exacts [⟨0, by simp, 0, by omega, by simp⟩, ⟨0, by simp, 1, by omega, by simp⟩,
          ⟨0, by simp, 2, by omega, by simp⟩, ⟨0, by simp, 3, by omega, by simp⟩]
      · exact ⟨i + 1, by simpa using h, j, hj, by simp; omega⟩
    · rintro ⟨i, h, j, hj, rfl⟩
      cases i with
      | zero =>
        have : j = 0 ∨ j = 1 ∨ j = 2 ∨ j = 3 := by omega
        rcases this with rfl | rfl | rfl | rfl <;> simp
      | succ i => exact .inr ⟨i, by simpa using h, j, hj, by simp; omega⟩

/-- After a word run is stored at `a`, word `i` of it is read back. -/
theorem readWord_writeCells_wordsCells {m : Memory} (hm : Memory.wf m) (a : Nat) (vs : List Word) {i : Nat}
    (h : i < vs.length) : (m.writeCells (wordsCells a vs)).readWord (a + 4 * i) = vs[i] := by
  have key : ∀ j, j < 4 → (m.writeCells (wordsCells a vs)).read (a + 4 * i + j) = byteOf vs[i] j := by
    intro j hj
    refine Memory.read_writeCells_mem hm (mem_wordsCells.2 ⟨i, h, j, hj, rfl⟩) fun c hc hca => ?_
    obtain ⟨i', h', j', hj', rfl⟩ := mem_wordsCells.1 hc
    simp only at hca
    have hi : i' = i := by omega
    have hjj : j' = j := by omega
    subst hi hjj; rfl
  rw [Memory.readWord, show a + 4 * i = a + 4 * i + 0 from rfl, key 0 (by omega), key 1 (by omega), key 2 (by omega),
    key 3 (by omega), wordOf_byteOf]

/-- A word run stored at `a` leaves every byte outside it as it was. -/
theorem read_writeCells_wordsCells_other (m : Memory) (a : Nat) (vs : List Word) {c : Nat}
    (h : c < a ∨ a + 4 * vs.length ≤ c) : (m.writeCells (wordsCells a vs)).read c = m.read c := by
  refine Memory.read_writeCells_other _ _ fun e he => ?_
  obtain ⟨i, hi, j, hj, rfl⟩ := mem_wordsCells.1 he
  simp only [ne_eq]; omega

end Sys2Proof.Machine
end

