-- ==== Sys2Proof/Laws/Ops.lean ====
section
/-! SUPPORT. What the shared operations can do, said once: the access checks and the window map, the commands, the bus, and one
step of the machine. -/

namespace Sys2Proof.Machine

/-! ## The window -/

/-- An access is an SMFE access exactly when it is 32 bits wide, aligned and inside the window. -/
theorem accessError_eq_none {width off : Nat} :
    accessError width off = none ↔ width = 32 ∧ off % 4 = 0 ∧ off < 0x10000 := by
  unfold accessError; split_ifs <;> simp <;> omega

theorem accessError_of_wellFormed {width off : Nat} (h : wellFormedAccess width off = true) :
    accessError width off = none := by
  simp only [wellFormedAccess, Bool.and_eq_true, decide_eq_true_eq] at h
  exact accessError_eq_none.2 ⟨h.1.1, h.1.2, h.2⟩

/-- The registers lie below 0x0040. -/
theorem target_register {off : Nat} (h : off < 0x0040) : target off = registerAt off := by
  unfold target; rw [if_pos h]

/-- No register is a region, and CMD is the register at 0x000C alone. -/
theorem registerAt_isRegion {off : Nat} (h : off < 0x0040) : (registerAt off).isRegion = false := by
  have : ∀ o < 0x0040, (registerAt o).isRegion = false := by decide
  exact this off h

theorem registerAt_eq_cmd {off : Nat} (h : off < 0x0040) (hc : registerAt off = .cmd) : off = 0x000C := by
  have : ∀ o < 0x0040, registerAt o = .cmd → o = 0x000C := by decide
  exact this off h hc

/-- What the regions of the window are, by offset. -/
theorem target_opcodeBuf {off : Nat} (h : 0x0040 ≤ off) (h' : off < 0x0050) :
    target off = .opcodeBuf (off - 0x0040) := by
  rw [target, if_neg (show ¬ off < 0x0040 by omega), if_pos (show off < 0x0050 by omega)]

theorem target_argsBuf {off : Nat} (h : 0x0050 ≤ off) (h' : off < 0x0060) :
    target off = .argsBuf (off - 0x0050) := by
  rw [target, if_neg (show ¬ off < 0x0040 by omega), if_neg (show ¬ off < 0x0050 by omega), if_pos (show off < 0x0060 by
    omega)]

theorem target_blockIn {off : Nat} (h : 0x0060 ≤ off) (h' : off < 0x0070) :
    target off = .blockIn (off - 0x0060) := by
  rw [target, if_neg (show ¬ off < 0x0040 by omega), if_neg (show ¬ off < 0x0050 by omega), if_neg (show ¬ off < 0x0060
    by omega), if_pos (show off < 0x0070 by omega)]

theorem target_blockOut {off : Nat} (h : 0x0070 ≤ off) (h' : off < 0x0080) :
    target off = .blockOut (off - 0x0070) := by
  rw [target, if_neg (show ¬ off < 0x0040 by omega), if_neg (show ¬ off < 0x0050 by omega), if_neg (show ¬ off < 0x0060
    by omega), if_neg (show ¬ off < 0x0070 by omega), if_pos (show off < 0x0080 by omega)]

theorem target_textBuf {off : Nat} (h : 0x0100 ≤ off) (h' : off < 0x0140) :
    target off = .textBuf (off - 0x0100) := by
  rw [target, if_neg (show ¬ off < 0x0040 by omega), if_neg (show ¬ off < 0x0050 by omega), if_neg (show ¬ off < 0x0060
    by omega), if_neg (show ¬ off < 0x0070 by omega), if_neg (show ¬ off < 0x0080 by omega), if_neg (show ¬ off < 0x0100
    by omega), if_pos (show off < 0x0140 by omega)]

theorem target_pix {off : Nat} (h : 0x0400 ≤ off) (h' : off < 0x0800) :
    target off = .pix ((off - 0x0400) / 4) := by
  rw [target, if_neg (show ¬ off < 0x0040 by omega), if_neg (show ¬ off < 0x0050 by omega), if_neg (show ¬ off < 0x0060
    by omega), if_neg (show ¬ off < 0x0070 by omega), if_neg (show ¬ off < 0x0080 by omega), if_neg (show ¬ off < 0x0100
    by omega), if_neg (show ¬ off < 0x0140 by omega), if_neg (show ¬ off < 0x0400 by omega), if_pos (show off < 0x0800 by
    omega)]

theorem target_colorBuf {off : Nat} (h : 0x8000 ≤ off) (h' : off < 0x10000) :
    target off = .colorBuf (off - 0x8000) := by
  rw [target, if_neg (show ¬ off < 0x0040 by omega), if_neg (show ¬ off < 0x0050 by omega), if_neg (show ¬ off < 0x0060
    by omega), if_neg (show ¬ off < 0x0070 by omega), if_neg (show ¬ off < 0x0080 by omega), if_neg (show ¬ off < 0x0100
    by omega), if_neg (show ¬ off < 0x0140 by omega), if_neg (show ¬ off < 0x0400 by omega), if_neg (show ¬ off < 0x0800
    by omega), if_neg (show ¬ off < 0x8000 by omega), if_pos (show off < 0x10000 by omega)]

/-- What the reserved offsets at and above 0x0040 are. -/
theorem target_reserved_high {off : Nat} (h : (0x0080 ≤ off ∧ off < 0x0100) ∨ (0x0140 ≤ off ∧ off < 0x0400) ∨
    (0x0800 ≤ off ∧ off < 0x8000) ∨ 0x10000 ≤ off) : target off = .reserved := by
  rcases h with h | h | h | h
  · rw [target, if_neg (show ¬ off < 0x0040 by omega), if_neg (show ¬ off < 0x0050 by omega), if_neg (show ¬ off < 0x0060
      by omega), if_neg (show ¬ off < 0x0070 by omega), if_neg (show ¬ off < 0x0080 by omega), if_pos (show off < 0x0100 by
      omega)]
  · rw [target, if_neg (show ¬ off < 0x0040 by omega), if_neg (show ¬ off < 0x0050 by omega), if_neg (show ¬ off < 0x0060
      by omega), if_neg (show ¬ off < 0x0070 by omega), if_neg (show ¬ off < 0x0080 by omega), if_neg (show ¬ off < 0x0100
      by omega), if_neg (show ¬ off < 0x0140 by omega), if_pos (show off < 0x0400 by omega)]
  · rw [target, if_neg (show ¬ off < 0x0040 by omega), if_neg (show ¬ off < 0x0050 by omega), if_neg (show ¬ off < 0x0060
      by omega), if_neg (show ¬ off < 0x0070 by omega), if_neg (show ¬ off < 0x0080 by omega), if_neg (show ¬ off < 0x0100
      by omega), if_neg (show ¬ off < 0x0140 by omega), if_neg (show ¬ off < 0x0400 by omega), if_neg (show ¬ off < 0x0800
      by omega), if_pos (show off < 0x8000 by omega)]
  · rw [target, if_neg (show ¬ off < 0x0040 by omega), if_neg (show ¬ off < 0x0050 by omega), if_neg (show ¬ off < 0x0060
      by omega), if_neg (show ¬ off < 0x0070 by omega), if_neg (show ¬ off < 0x0080 by omega), if_neg (show ¬ off < 0x0100
      by omega), if_neg (show ¬ off < 0x0140 by omega), if_neg (show ¬ off < 0x0400 by omega), if_neg (show ¬ off < 0x0800
      by omega), if_neg (show ¬ off < 0x8000 by omega), if_neg (show ¬ off < 0x10000 by omega)]

/-- The one map from offsets to targets, case by case. -/
theorem target_cases (off : Nat) :
    (off < 0x0040 ∧ target off = registerAt off) ∨
      (0x0040 ≤ off ∧ off < 0x0050 ∧ target off = .opcodeBuf (off - 0x0040)) ∨
      (0x0050 ≤ off ∧ off < 0x0060 ∧ target off = .argsBuf (off - 0x0050)) ∨
      (0x0060 ≤ off ∧ off < 0x0070 ∧ target off = .blockIn (off - 0x0060)) ∨
      (0x0070 ≤ off ∧ off < 0x0080 ∧ target off = .blockOut (off - 0x0070)) ∨
      (0x0100 ≤ off ∧ off < 0x0140 ∧ target off = .textBuf (off - 0x0100)) ∨
      (0x0400 ≤ off ∧ off < 0x0800 ∧ target off = .pix ((off - 0x0400) / 4)) ∨
      (0x8000 ≤ off ∧ off < 0x10000 ∧ target off = .colorBuf (off - 0x8000)) ∨
      (((0x0080 ≤ off ∧ off < 0x0100) ∨ (0x0140 ≤ off ∧ off < 0x0400) ∨ (0x0800 ≤ off ∧ off < 0x8000) ∨ 0x10000 ≤ off) ∧
        target off = .reserved) := by
  have h : off < 0x0040 ∨ (0x0040 ≤ off ∧ off < 0x0050) ∨ (0x0050 ≤ off ∧ off < 0x0060) ∨ (0x0060 ≤ off ∧ off < 0x0070) ∨
      (0x0070 ≤ off ∧ off < 0x0080) ∨ (0x0100 ≤ off ∧ off < 0x0140) ∨ (0x0400 ≤ off ∧ off < 0x0800) ∨
      (0x8000 ≤ off ∧ off < 0x10000) ∨ ((0x0080 ≤ off ∧ off < 0x0100) ∨ (0x0140 ≤ off ∧ off < 0x0400) ∨
        (0x0800 ≤ off ∧ off < 0x8000) ∨ 0x10000 ≤ off) := by omega
  rcases h with h | h | h | h | h | h | h | h | h
  · exact .inl ⟨h, target_register h⟩
  · exact .inr (.inl ⟨h.1, h.2, target_opcodeBuf h.1 h.2⟩)
  · exact .inr (.inr (.inl ⟨h.1, h.2, target_argsBuf h.1 h.2⟩))
  · exact .inr (.inr (.inr (.inl ⟨h.1, h.2, target_blockIn h.1 h.2⟩)))
  · exact .inr (.inr (.inr (.inr (.inl ⟨h.1, h.2, target_blockOut h.1 h.2⟩))))
  · exact .inr (.inr (.inr (.inr (.inr (.inl ⟨h.1, h.2, target_textBuf h.1 h.2⟩)))))
  · exact .inr (.inr (.inr (.inr (.inr (.inr (.inl ⟨h.1, h.2, target_pix h.1 h.2⟩))))))
  · exact .inr (.inr (.inr (.inr (.inr (.inr (.inr (.inl ⟨h.1, h.2, target_colorBuf h.1 h.2⟩)))))))
  · exact .inr (.inr (.inr (.inr (.inr (.inr (.inr (.inr ⟨h, target_reserved_high h⟩)))))))

/-- CMD is the one offset 0x000C. -/
theorem target_eq_cmd {off : Nat} : target off = .cmd ↔ off = cmdOffset := by
  constructor
  · intro h
    rcases target_cases off with ⟨h0, ht⟩ | ⟨-, -, ht⟩ | ⟨-, -, ht⟩ | ⟨-, -, ht⟩ | ⟨-, -, ht⟩ | ⟨-, -, ht⟩ | ⟨-, -, ht⟩ |
      ⟨-, -, ht⟩ | ⟨-, ht⟩
    · exact registerAt_eq_cmd h0 (ht ▸ h)
    all_goals rw [ht] at h; cases h
  · rintro rfl; rfl

/-- Every word-aligned register offset, named or reserved. -/
theorem register_cases {off : Nat} (h : off < 0x0040) (h4 : off % 4 = 0) :
    off = 0x0000 ∨ off = 0x0004 ∨ off = 0x0008 ∨ off = 0x000C ∨ off = 0x0010 ∨ off = 0x0014 ∨ off = 0x0018 ∨ off = 0x001C ∨
      off = 0x0020 ∨ off = 0x0024 ∨ off = 0x0028 ∨ off = 0x002C ∨ off = 0x0030 ∨ off = 0x0034 ∨ off = 0x0038 ∨
      off = 0x003C := by omega

/-- R22: the reserved offsets. -/
theorem target_reserved {off : Nat} (h4 : off % 4 = 0)
    (h : (0x0014 ≤ off ∧ off < 0x0020) ∨ (0x0080 ≤ off ∧ off < 0x0100) ∨ (0x0140 ≤ off ∧ off < 0x0400) ∨
      (0x0800 ≤ off ∧ off < 0x8000)) : target off = .reserved := by
  rcases h with h | h
  · have : off = 0x0014 ∨ off = 0x0018 ∨ off = 0x001C := by omega
    rcases this with rfl | rfl | rfl <;> rfl
  · exact target_reserved_high (by omega)

/-! ## Commands -/

theorem runningOf_eq_some {i : Instr} {d : Running} : runningOf i = some d ↔ d.instr? = some i := by
  cases i <;> cases d <;> simp [runningOf, Running.instr?]

theorem runningOf_eq_none {i : Instr} : runningOf i = none ↔ i = .clear := by cases i <;> simp [runningOf]

/-- A word's decoding and encoding: each command has one word, and a legal word is the encoding of its command (R81). -/
theorem decode_eq_legal {v : Word} {i : Instr} : decode v = .legal i ↔ v = encode i := by
  constructor
  · intro h
    unfold decode at h
    split_ifs at h with h0 h1 h2 h3 h4 h5 <;> simp only [Decoded.legal.injEq] at h <;> subst h
    all_goals
      refine BitVec.eq_of_toNat_eq ?_
      have hr := congrArg BitVec.toNat (not_not.1 h0)
      first
        | have ho := congrArg BitVec.toNat h1; simp [rsvdField, opField, encode, opcode] at hr ho ⊢; omega
        | have ho := congrArg BitVec.toNat h2; simp [rsvdField, opField, encode, opcode] at hr ho ⊢; omega
        | have ho := congrArg BitVec.toNat h3; simp [rsvdField, opField, encode, opcode] at hr ho ⊢; omega
        | have ho := congrArg BitVec.toNat h4; simp [rsvdField, opField, encode, opcode] at hr ho ⊢; omega
        | have ho := congrArg BitVec.toNat h5; simp [rsvdField, opField, encode, opcode] at hr ho ⊢; omega
  · rintro rfl; cases i <;> decide

/-- The OP field of a legal word is its command's number. -/
theorem opField_of_legal {v : Word} {i : Instr} (h : decode v = .legal i) : opField v = opcode i := by
  rw [decode_eq_legal.1 h]; cases i <;> decide

/-- What a command that completes leaves: IDLE, DONE, and no field changed but STATUS, the memory, PIX_COLS and COLOR_LEN. -/
theorem exec_next (i : Instr) (s : State) : ∃ t, exec i s = .next t ∧
    ((i = .clear ∧ t = clearStatus s) ∨
      (i ≠ .clear ∧ ((∃ e, t = raiseError e s) ∨
        ∃ mem pixCols colorLen, t = complete { s with mem := mem, pixCols := pixCols, colorLen := colorLen }))) := by
  cases i with
  | clear => exact ⟨_, rfl, .inl ⟨rfl, rfl⟩⟩
  | frame =>
    simp only [exec, execFrame]
    split_ifs
    · exact ⟨_, rfl, .inr ⟨by simp, .inl ⟨_, rfl⟩⟩⟩
    · exact ⟨_, rfl, .inr ⟨by simp, .inr ⟨_, s.pixCols, s.colorLen, rfl⟩⟩⟩
  | sealBlock => exact ⟨_, rfl, .inr ⟨by simp, .inr ⟨_, s.pixCols, s.colorLen, rfl⟩⟩⟩
  | render =>
    refine ⟨_, rfl, .inr ⟨by simp, ?_⟩⟩
    unfold renderOn
    split_ifs
    · exact .inl ⟨_, rfl⟩
    · exact .inl ⟨_, rfl⟩
    · exact .inr ⟨_, _, s.colorLen, rfl⟩
  | encode =>
    refine ⟨_, rfl, .inr ⟨by simp, ?_⟩⟩
    unfold encodeOn
    split_ifs
    · exact .inl ⟨_, rfl⟩
    · split
      · exact .inl ⟨_, rfl⟩
      · exact .inr ⟨_, s.pixCols, _, rfl⟩

/-! ## The bus -/

/-- R95: what the issue of a word does. -/
theorem issue_next (v : Word) (s : State) :
    (decode v = .legal .clear ∧ issue v s = .next (clearStatus s)) ∨
      (decode v ≠ .legal .clear ∧ ∃ d, d.instr? = (decode v).instr? ∧ issue v s = .next (accept v d s)) := by
  unfold issue
  cases h : decode v with
  | illegal why => exact .inr ⟨by simp, .illegal, rfl, rfl⟩
  | legal i =>
    cases i with
    | clear => exact .inl ⟨rfl, rfl⟩
    | frame => exact .inr ⟨by simp, .frame, rfl, rfl⟩
    | sealBlock => exact .inr ⟨by simp, .sealBlock, rfl, rfl⟩
    | render => exact .inr ⟨by simp, .render, rfl, rfl⟩
    | encode => exact .inr ⟨by simp, .encode, rfl, rfl⟩

/-- R61: a write to a target leaves STATUS, the phase, the schedule, the host and COLOR_LEN alone. -/
theorem memWrite_keeps (p : Config) (tg : Target) (v : Word) (s : State) :
    (memWrite p tg v s).status = s.status ∧ (memWrite p tg v s).phase = s.phase ∧ (memWrite p tg v s).wait = s.wait ∧
      (memWrite p tg v s).draws = s.draws ∧ (memWrite p tg v s).host = s.host ∧
      (memWrite p tg v s).colorLen = s.colorLen := by
  unfold memWrite; split <;> first | exact ⟨rfl, rfl, rfl, rfl, rfl, rfl⟩ | (split_ifs <;> exact ⟨rfl, rfl, rfl, rfl, rfl, rfl⟩)

/-- R61: a write to a register changes no storage. -/
theorem memWrite_register_mem (p : Config) {tg : Target} (h : tg.isRegion = false) (v : Word) (s : State) :
    (memWrite p tg v s).mem = s.mem := by
  cases tg with
  | color reg => cases reg <;> rfl
  | opcodeBuf i | argsBuf i | blockIn i | blockOut i | textBuf i | pix i | colorBuf i => simp [Target.isRegion] at h
  | _ => rfl

/-- R61: the storage a write to the window at `off` changes: none, one aligned word of a byte region, or one column word of PIX. -/
theorem memWrite_mem (p : Config) (off : Nat) (v : Word) (s : State) :
    (memWrite p (target off) v s).mem = s.mem ∨
      (((0x0040 ≤ off ∧ off < 0x0070) ∨ (0x0100 ≤ off ∧ off < 0x0140)) ∧
        (memWrite p (target off) v s).mem = s.mem.writeCells (wordCells off v)) ∨
      (∃ c, c < p.maxCols ∧ c < 256 ∧ c = (off - 0x0400) / 4 ∧ 0x0400 ≤ off ∧
        (memWrite p (target off) v s).mem = s.mem.writeCells (wordCells (pixOffset c) (v &&& rowMask p))) := by
  rcases target_cases off with ⟨h0, ht⟩ | ⟨h, h', ht⟩ | ⟨h, h', ht⟩ | ⟨h, h', ht⟩ | ⟨h, h', ht⟩ | ⟨h, h', ht⟩ | ⟨h, h', ht⟩ |
    ⟨h, h', ht⟩ | ⟨h, ht⟩ <;> rw [ht]
  · exact .inl (memWrite_register_mem p (registerAt_isRegion h0) v s)
  · exact .inr (.inl ⟨by omega, by rw [memWrite, regionBase, show 0x0040 + (off - 0x0040) = off by omega]⟩)
  · exact .inr (.inl ⟨by omega, by rw [memWrite, regionBase, show 0x0050 + (off - 0x0050) = off by omega]⟩)
  · exact .inr (.inl ⟨by omega, by rw [memWrite, regionBase, show 0x0060 + (off - 0x0060) = off by omega]⟩)
  · exact .inl rfl
  · exact .inr (.inl ⟨by omega, by rw [memWrite, regionBase, show 0x0100 + (off - 0x0100) = off by omega]⟩)
  · by_cases hc : (off - 0x0400) / 4 < p.maxCols
    · exact .inr (.inr ⟨_, hc, by omega, rfl, h, by rw [memWrite, if_pos hc]⟩)
    · exact .inl (by rw [memWrite, if_neg hc])
  · exact .inl rfl
  · exact .inl rfl

/-- R61, R68, R95: everything a host write can do. -/
theorem hostWrite_next (s : State) (off : Nat) (v : Word) :
    ∃ t, hostWrite s off v = .next t ∧
      ((s.phase ≠ .idle ∧ t = { s with status := { s.status with busyWr := true } }) ∨
        (s.phase = .idle ∧ off = cmdOffset ∧ decode v = .legal .clear ∧ t = clearStatus s) ∨
        (s.phase = .idle ∧ off = cmdOffset ∧ decode v ≠ .legal .clear ∧ ∃ d, d.instr? = (decode v).instr? ∧ t = accept v d s) ∨
        (s.phase = .idle ∧ off ≠ cmdOffset ∧ t = memWrite Config.device (target off) v s)) := by
  unfold hostWrite
  by_cases hp : s.phase = .idle
  · rw [if_neg (by simpa using hp)]
    by_cases hc : off = cmdOffset
    · have : target off = .cmd := target_eq_cmd.2 hc
      rw [this]
      rcases issue_next v s with ⟨h, he⟩ | ⟨h, d, hd, he⟩
      · exact ⟨_, he, .inr (.inl ⟨hp, hc, h, rfl⟩)⟩
      · exact ⟨_, he, .inr (.inr (.inl ⟨hp, hc, h, d, hd, rfl⟩))⟩
    · have hne : target off ≠ .cmd := fun h => hc (target_eq_cmd.1 h)
      refine ⟨_, ?_, .inr (.inr (.inr ⟨hp, hc, rfl⟩))⟩
      split
      · contradiction
      · rfl
  · rw [if_pos (by simpa using hp)]
    exact ⟨_, rfl, .inl ⟨hp, rfl⟩⟩

/-- R60, R69: a host read changes nothing but the count of free draws. -/
theorem hostRead_state (s : State) (off : Nat) : ∃ n, (hostRead s off).2 = { s with draws := n } := by
  unfold hostRead; split_ifs
  · exact ⟨_, rfl⟩
  · exact ⟨s.draws, rfl⟩

/-! ## One step -/

/-- Everything one statement of the host can do, when it goes on. -/
theorem runStmt_next {s t : State} {stmt : HostStmt} (h : runStmt s stmt = .next t) :
    (∃ width off v, stmt = .write width off v ∧ accessError width off = none ∧ hostWrite s.hostAdvance off v = .next t) ∨
      (∃ host draws, t = { s with host := host, draws := draws } ∧ host.prog = s.host.prog ∧
        (Table.Wf s.host.vars → Table.Wf host.vars)) ∨
      (stmt = .pulseRst ∧ t = (assertReset s).hostAdvance) := by
  cases stmt with
  | write width off v =>
    simp only [runStmt] at h
    split at h
    · cases h
    · exact .inl ⟨width, off, v, rfl, ‹_›, h⟩
  | read width off x =>
    simp only [runStmt] at h
    split at h
    · cases h
    · obtain ⟨n, hn⟩ := hostRead_state s off
      rw [hn] at h
      cases h
      exact .inr (.inl ⟨_, n, rfl, rfl, fun hw => Table.write_wf hw _ _⟩)
  | bnz x mask k =>
    simp only [runStmt] at h
    split_ifs at h <;> cases h <;> exact .inr (.inl ⟨_, s.draws, rfl, rfl, id⟩)
  | check x mask value =>
    simp only [runStmt] at h
    split_ifs at h
    cases h
    exact .inr (.inl ⟨_, s.draws, rfl, rfl, id⟩)
  | pulseRst => cases h; exact .inr (.inr ⟨rfl, rfl⟩)

/-- The engine's turn on a running legal command is that command's meaning. -/
theorem engineStep_busy {s : State} {d : Running} {i : Instr} (hp : s.phase = .busy d) (hd : d.instr? = some i) :
    engineStep s = exec i s := by simp only [engineStep, hp, hd]

/-- What the engine's turn does. -/
theorem engineStep_next (s : State) : ∃ t, engineStep s = .next t ∧
    ((s.phase = .idle ∧ t = s) ∨ (s.phase = .init ∧ t = endInit s) ∨
      (s.phase = .busy .illegal ∧ t = raiseError .illegalCmd s) ∨
      ∃ d i, s.phase = .busy d ∧ d.instr? = some i ∧ exec i s = .next t) := by
  cases hp : s.phase with
  | idle => exact ⟨s, by simp only [engineStep, hp], .inl ⟨rfl, rfl⟩⟩
  | init => exact ⟨_, by simp only [engineStep, hp], .inr (.inl ⟨rfl, rfl⟩)⟩
  | busy d =>
    cases hd : d.instr? with
    | none =>
      have : d = .illegal := by cases d <;> simp_all [Running.instr?]
      subst this
      exact ⟨_, by simp only [engineStep, hp, hd], .inr (.inr (.inl ⟨rfl, rfl⟩))⟩
    | some i =>
      obtain ⟨t, ht, -⟩ := exec_next i s
      exact ⟨t, (engineStep_busy hp hd).trans ht, .inr (.inr (.inr ⟨d, i, rfl, hd, ht⟩))⟩

/-- Whose turn a step is. -/
theorem step_eq (s : State) :
    (s.phase = .idle ∧ step s = hostStep s) ∨ (s.phase ≠ .idle ∧ s.wait = 0 ∧ step s = engineStep s) ∨
      (s.phase ≠ .idle ∧ ∃ n, s.wait = n + 1 ∧ step s = hostStep { s with wait := n }) := by
  unfold step agentsStep
  by_cases hp : s.phase = .idle
  · simp [hp]
  · rw [if_neg hp]
    cases hw : s.wait with
    | zero => exact .inr (.inl ⟨hp, rfl, rfl⟩)
    | succ n => exact .inr (.inr ⟨hp, n, rfl, rfl⟩)

/-- What the host's turn does, when it goes on. -/
theorem hostStep_next {s t : State} (h : hostStep s = .next t) :
    t = s ∨ ∃ stmt, s.host.prog[s.host.pc]? = some stmt ∧ runStmt s stmt = .next t := by
  unfold hostStep at h
  split at h
  · exact .inr ⟨_, ‹_›, h⟩
  · cases h; exact .inl rfl

/-- Everything a step can do, when it goes on. `r` is the state as the turn finds it: while the engine is not IDLE, the host's turn
uses up one step of the latency. -/
theorem step_next {s t : State} (h : step s = .next t) :
    -- the engine's turn
    (s.phase = .init ∧ s.wait = 0 ∧ t = endInit s) ∨
      (s.phase = .busy .illegal ∧ s.wait = 0 ∧ t = raiseError .illegalCmd s) ∨
      (∃ d i, s.engineCompletes d ∧ d.instr? = some i ∧ exec i s = .next t) ∨
      -- the host's turn
      ∃ n, (s.phase = .idle ∨ s.wait = n + 1) ∧
        ((∃ host draws, t = { s with wait := n, host := host, draws := draws } ∧ host.prog = s.host.prog ∧
            (Table.Wf s.host.vars → Table.Wf host.vars)) ∨
          (s.hostRuns .pulseRst ∧ t = (assertReset { s with wait := n }).hostAdvance) ∨
          (∃ off v, s.hostRuns (.write 32 off v) ∧ off % 4 = 0 ∧ off < 0x10000 ∧
            ((s.phase ≠ .idle ∧ t = { s with
                wait := n, host := { s.host with pc := s.host.pc + 1 }, status := { s.status with busyWr := true } }) ∨
              (s.phase = .idle ∧ off = cmdOffset ∧ decode v = .legal .clear ∧ t = clearStatus s.hostAdvance) ∨
              (s.phase = .idle ∧ off = cmdOffset ∧ decode v ≠ .legal .clear ∧
                ∃ d, d.instr? = (decode v).instr? ∧ t = accept v d s.hostAdvance) ∨
              (s.phase = .idle ∧ off ≠ cmdOffset ∧ t = memWrite Config.device (target off) v s.hostAdvance)))) := by
  have host : ∀ n, (s.phase = .idle ∧ n = s.wait ∨ s.phase ≠ .idle ∧ s.wait = n + 1) → hostStep { s with wait := n } = .next t →
      ∃ n, (s.phase = .idle ∨ s.wait = n + 1) ∧
        ((∃ host draws, t = { s with wait := n, host := host, draws := draws } ∧ host.prog = s.host.prog ∧
            (Table.Wf s.host.vars → Table.Wf host.vars)) ∨
          (s.hostRuns .pulseRst ∧ t = (assertReset { s with wait := n }).hostAdvance) ∨
          (∃ off v, s.hostRuns (.write 32 off v) ∧ off % 4 = 0 ∧ off < 0x10000 ∧
            ((s.phase ≠ .idle ∧ t = { s with
                wait := n, host := { s.host with pc := s.host.pc + 1 }, status := { s.status with busyWr := true } }) ∨
              (s.phase = .idle ∧ off = cmdOffset ∧ decode v = .legal .clear ∧ t = clearStatus s.hostAdvance) ∨
              (s.phase = .idle ∧ off = cmdOffset ∧ decode v ≠ .legal .clear ∧
                ∃ d, d.instr? = (decode v).instr? ∧ t = accept v d s.hostAdvance) ∨
              (s.phase = .idle ∧ off ≠ cmdOffset ∧ t = memWrite Config.device (target off) v s.hostAdvance)))) := by
    intro n hn hstep
    have hturn : s.phase = .idle ∨ 0 < s.wait := by rcases hn with h | h <;> [exact .inl h.1; exact .inr (by omega)]
    have hidle : s.phase = .idle → n = s.wait := by rcases hn with h | h <;> [exact fun _ => h.2; exact fun h' => absurd h' h.1]
    refine ⟨n, by rcases hn with h | h <;> [exact .inl h.1; exact .inr h.2], ?_⟩
    rcases hostStep_next hstep with rfl | ⟨stmt, hstmt, hrun⟩
    · exact .inl ⟨_, _, rfl, rfl, id⟩
    · rcases runStmt_next hrun with ⟨width, off, v, rfl, hacc, hw⟩ | ⟨hst, dr, rfl, hp, hv⟩ | ⟨rfl, rfl⟩
      · obtain ⟨rfl, h4, hlt⟩ := accessError_eq_none.1 hacc
        refine .inr (.inr ⟨off, v, ⟨hstmt, hturn⟩, h4, hlt, ?_⟩)
        obtain ⟨u, hu, hcases⟩ := hostWrite_next (State.hostAdvance { s with wait := n }) off v
        rw [hu] at hw
        cases hw
        have hs : s.phase = .idle → ({ s with wait := n } : State) = s := fun hi => by rw [hidle hi]
        rcases hcases with ⟨h1, rfl⟩ | ⟨h1, h2, h3, rfl⟩ | ⟨h1, h2, h3, d, hd, rfl⟩ | ⟨h1, h2, rfl⟩
        · exact .inl ⟨h1, rfl⟩
        · exact .inr (.inl ⟨h1, h2, h3, by rw [hs h1]⟩)
        · exact .inr (.inr (.inl ⟨h1, h2, h3, d, hd, by rw [hs h1]⟩))
        · exact .inr (.inr (.inr ⟨h1, h2, by rw [hs h1]⟩))
      · exact .inl ⟨hst, dr, rfl, hp, hv⟩
      · exact .inr (.inl ⟨⟨hstmt, hturn⟩, rfl⟩)
  rcases step_eq s with ⟨hp, he⟩ | ⟨hp, hw, he⟩ | ⟨hp, n, hw, he⟩
  · exact .inr (.inr (.inr (host s.wait (.inl ⟨hp, rfl⟩) (by rw [he] at h; exact h))))
  · obtain ⟨u, hu, hc⟩ := engineStep_next s
    rw [he, hu] at h
    cases h
    rcases hc with ⟨h1, -⟩ | ⟨h1, rfl⟩ | ⟨h1, rfl⟩ | ⟨d, i, h1, h2, h3⟩
    · exact absurd h1 hp
    · exact .inl ⟨h1, hw, rfl⟩
    · exact .inr (.inl ⟨h1, hw, rfl⟩)
    · exact .inr (.inr (.inl ⟨d, i, ⟨h1, hw⟩, h2, h3⟩))
  · exact .inr (.inr (.inr (host n (.inr ⟨hp, hw⟩) (by rw [he] at h; exact h))))

end Sys2Proof.Machine
end

