-- ==== Sys2Proof/Laws/Commands.lean ====
section
/-! SUPPORT. What the commands do, said once per operation: the parts of FRAME, SEAL, RENDER and ENCODE, and the storage each
writes. -/

namespace Sys2Proof.Machine

/-! ## Parameters, words and fields -/

/-- R7. -/
theorem rows_le (p : Config) : p.rows ≤ 32 := by unfold Config.rows; omega

/-- R8. -/
theorem gw_le (p : Config) : p.gw ≤ 63 := by unfold Config.gw; omega

/-- R10. -/
theorem maxCols_le (p : Config) : p.maxCols ≤ 256 := by unfold Config.maxCols; omega

/-- Bit `i` of a field placed at bit `lo`. -/
theorem getElem_fieldAt {w : Nat} (lo : Nat) (v : BitVec w) (i : Nat) (h : i < 32) : (fieldAt lo v)[i] =
    (decide (lo ≤ i) && v.getLsbD (i - lo)) := by
  by_cases h' : lo ≤ i <;> simp [fieldAt, h']

/-- Byte `j` of the word stored at `a` is the byte at `a + j` (R64). -/
theorem byteOf_readWord (m : Memory) (a j : Nat) (hj : j < 4) : (m.readWord a).extractLsb' (8 * j) 8 = m.read (a + j) := by
  obtain ⟨h0, h1, h2, h3⟩ := byteOf_wordOf (m.read a) (m.read (a + 1)) (m.read (a + 2)) (m.read (a + 3))
  have : j = 0 ∨ j = 1 ∨ j = 2 ∨ j = 3 := by omega
  rcases this with rfl | rfl | rfl | rfl
  exacts [h0, h1, h2, h3]

/-- A word depends on its four bytes alone. -/
theorem readWord_congr {m n : Memory} {a : Nat} (h : ∀ b, a ≤ b → b < a + 4 → m.read b = n.read b) : m.readWord a = n.readWord a := by
  simp only [Memory.readWord]
  rw [h a (by omega) (by omega), h (a+1) (by omega) (by omega), h (a+2) (by omega) (by omega), h (a+3) (by omega) (by omega)]

/-- R45: the row mask has bits 0 to ROWS-1. -/
theorem getLsbD_rowMask (p : Config) (i : Nat) : (rowMask p).getLsbD i = decide (i < p.rows) := by
  have := rows_le p
  have h : rowMask p = BitVec.ofNat 32 (2 ^ p.rows - 1) := rfl
  rw [h, BitVec.getLsbD_ofNat, Nat.testBit_two_pow_sub_one]
  by_cases hi : i < p.rows <;> simp [hi]; omega

/-- A value of ROWS bits has no bit above the row mask. -/
theorem and_rowMask_setWidth (p : Config) (x : BitVec p.rows) : x.setWidth 32 &&& rowMask p = x.setWidth 32 := by
  refine BitVec.eq_of_getLsbD_eq fun i hi => ?_
  rw [BitVec.getLsbD_and, getLsbD_rowMask, BitVec.getLsbD_setWidth]
  by_cases h : i < p.rows
  · simp [h]
  · simp [BitVec.getLsbD_of_ge _ _ (Nat.not_lt.1 h)]

/-! ## FRAME -/

/-- R146: a frame that passes the check of R141 is 16 bytes long. -/
theorem frameBytes_length (s : State) (h : 1 + s.opCount + s.argCount ≤ 16) : (frameBytes s).length = 16 := by
  simp [frameBytes]; omega

/-! ## SEAL -/

/-- R150, R151: byte `i` of BLOCK_OUT after SEAL. -/
theorem sealOn_read (s : State) (hm : Memory.wf s.mem) (p : Config) (i : Nat) (h : i < 16) :
    (sealOn p s).byteAt (0x70 + i) = (sealedBlock p s.blockIn)[i] := by
  have := read_writeCells_byteCells hm 0x70 (sealedBlock p s.blockIn).toList (i := i) (by simpa using h)
  rw [byteAt_eq]; simpa [sealOn, regionBase] using this

/-- R150: BLOCK_OUT after SEAL. -/
theorem sealOn_blockOut (s : State) (hm : Memory.wf s.mem) (p : Config) : (sealOn p s).blockOut = sealedBlock p s.blockIn := by
  refine Vector.ext fun i h => ?_
  rw [State.blockOut, Vector.getElem_ofFn]
  exact sealOn_read s hm p i h

/-! ## RENDER -/

/-- R112: both cases at once, in the natural numbers. -/
theorem columnCount_eq {p : Config} (n : Nat) : columnCount p n = n * p.gw + (n - 1) := by
  unfold columnCount; split_ifs with h
  · simp [h]
  · rfl

/-- R114: every glyph, the blank one too, is GW columns wide. -/
theorem glyphColumns_length (p : Config) (c : Byte) : (glyphColumns p c).length = p.gw := by
  unfold glyphColumns; split <;> simp [Config.gw]

/-- R112: the number of columns drawn. -/
theorem textColumns_length (p : Config) (cs : List Byte) : (textColumns p cs).length = columnCount p cs.length := by
  induction cs using textColumns.induct with
  | case1 => simp [textColumns, columnCount]
  | case2 c => simp [textColumns, columnCount, glyphColumns_length]
  | case3 c d t ih =>
    simp only [textColumns, List.length_append, glyphColumns_length, ih, columnCount, List.length_cons, List.length_nil]
    rw [if_neg (by omega), if_neg (by omega)]; ring_nf; omega

/-- R114: column `j` of a character's glyph. -/
theorem glyphColumns_get (p : Config) (c : Byte) {j : Nat} (hj : j < p.gw) : (glyphColumns p c)[j]? =
    some (match p.glyph c with
      | some g => (g.toList.getD j 0).setWidth 32
      | none   => 0#32) := by
  unfold glyphColumns
  cases p.glyph c with
  | none => simp [hj]
  | some g =>
    have hgl : j < g.toList.length := by simpa [Config.gw] using hj
    simp [List.getD, List.getElem?_eq_getElem hgl]

/-- R115: glyph column `j` of character `i`. -/
theorem textColumns_glyph (p : Config) (cs : List Byte) (i j : Nat) (hi : i < cs.length) (hj : j < p.gw) :
    (textColumns p cs)[i * (p.gw + 1) + j]? = (glyphColumns p cs[i])[j]? := by
  induction cs using textColumns.induct generalizing i with
  | case1 => simp at hi
  | case2 c => have : i = 0 := by simpa using hi
               subst this; simp [textColumns]
  | case3 c d t ih =>
    have hl := glyphColumns_length p c
    cases i with
    | zero =>
      simp only [textColumns, List.append_assoc]
      rw [List.getElem?_append_left (by omega)]; simp
    | succ i =>
      simp only [textColumns, List.append_assoc]
      rw [List.getElem?_append_right (by rw [hl]; nlinarith), List.getElem?_append_right (by rw [hl]; simp; ring_nf; omega)]
      rw [show (c :: d :: t)[i + 1] = (d :: t)[i]'(by simpa using hi) from rfl, ← ih i (by simpa using hi)]
      · congr 1; rw [hl]; simp; ring_nf; omega

/-- R115: the spacing column after character `i`. -/
theorem textColumns_space (p : Config) (cs : List Byte) (i : Nat) (hi : i + 1 < cs.length) :
    (textColumns p cs)[i * (p.gw + 1) + p.gw]? = some 0#32 := by
  induction cs using textColumns.induct generalizing i with
  | case1 => simp at hi
  | case2 c => simp at hi
  | case3 c d t ih =>
    have hl := glyphColumns_length p c
    cases i with
    | zero =>
      simp only [textColumns, List.append_assoc]
      rw [List.getElem?_append_right (by omega)]; simp [hl]
    | succ i =>
      simp only [textColumns, List.append_assoc]
      rw [List.getElem?_append_right (by rw [hl]; nlinarith), List.getElem?_append_right (by rw [hl]; simp; ring_nf; omega)]
      rw [← ih i (by simpa using hi)]
      · congr 1; rw [hl]; simp; ring_nf; omega

/-- R44: RENDER reads TEXT_LEN.N codes. -/
theorem textCodes_length (s : State) : s.textCodes.length = s.textLen.toNat := by simp [State.textCodes, State.textCount]

/-- R117: a glyph's columns have no bit at or above ROWS. -/
theorem glyphColumns_and (p : Config) (c : Byte) : ∀ x ∈ glyphColumns p c, x &&& rowMask p = x := by
  intro x hx
  unfold glyphColumns at hx
  split at hx
  · simp only [List.mem_map] at hx
    obtain ⟨y, -, rfl⟩ := hx
    exact and_rowMask_setWidth p y
  · rw [List.eq_of_mem_replicate hx]; simp

/-- R117: no column drawn has a bit at or above ROWS. -/
theorem textColumns_and (p : Config) (cs : List Byte) : ∀ x ∈ textColumns p cs, x &&& rowMask p = x := by
  induction cs using textColumns.induct with
  | case1 => simp [textColumns]
  | case2 c => simpa [textColumns] using glyphColumns_and p c
  | case3 c d t ih =>
    intro x hx
    simp only [textColumns, List.mem_append, List.mem_singleton] at hx
    rcases hx with (hx | rfl) | hx
    · exact glyphColumns_and p c x hx
    · simp
    · exact ih x hx

/-- R110: a RENDER that passes both checks. -/
theorem renderOn_ok {p : Config} {s : State} (h : s.textLen.toNat ≤ 64) (h' : columnCount p s.textLen.toNat ≤ p.maxCols) :
    renderOn p s = complete { s with
    mem     := s.mem.writeCells (wordsCells (regionBase .pix) (textColumns p s.textCodes))
    pixCols := BitVec.ofNat 9 (columnCount p s.textCount) } := by
  rw [renderOn, if_neg (by simp only [State.textCount]; omega), if_neg (by simp only [State.textCount]; omega)]

/-- R111. -/
theorem renderOn_tooLong {p : Config} {s : State} (h : 64 < s.textLen.toNat) : renderOn p s = raiseError .renderTextLen s :=
  if_pos (show s.textCount > 64 from h)

/-- R116. -/
theorem renderOn_tooWide {p : Config} {s : State} (h : s.textLen.toNat ≤ 64) (h' : p.maxCols < columnCount p s.textLen.toNat) :
    renderOn p s = raiseError .renderTooWide s :=
  (if_neg (show ¬ s.textCount > 64 from Nat.not_lt.2 h)).trans (if_pos (show columnCount p s.textCount > p.maxCols from h'))

/-- The columns a successful RENDER leaves. -/
theorem renderOn_column {p : Config} {s : State} (hm : Memory.wf s.mem) (h : s.textLen.toNat ≤ 64)
    (h' : columnCount p s.textLen.toNat ≤ p.maxCols) {k : Nat} {x : Word} (hk : (textColumns p s.textCodes)[k]? = some x) :
    (renderOn p s).pixColumn p k = x := by
  obtain ⟨hlt, hx⟩ := List.getElem?_eq_some_iff.1 hk
  have hl : (textColumns p s.textCodes).length = columnCount p s.textLen.toNat := by
    rw [textColumns_length, textCodes_length]
  rw [renderOn_ok h h', State.pixColumn, if_pos (by omega)]
  simp only [complete_mem, pixOffset]
  rw [readWord_writeCells_wordsCells hm _ _ hlt, hx]
  exact textColumns_and p _ x (hx ▸ List.getElem_mem hlt)

/-! ## ENCODE -/

/-- R35: the reserved values of STYLE. -/
theorem ofField_iff (f : BitVec 3) : Style.ofField f = none ↔ 5 ≤ f.toNat := by
  revert f; decide

/-- R35: the values of STYLE that name a style. -/
theorem legal_style {f : BitVec 3} (h : f.toNat ≤ 4) : ∃ st, Style.ofField f = some st := by
  cases hs : Style.ofField f with
  | none => have := (ofField_iff f).1 hs; omega
  | some st => exact ⟨st, rfl⟩

/-- R123: a pixel's index lies below W·ROWS. -/
theorem pixelIndex_lt {p : Config} {c r w : Nat} (hc : c < w) (hr : r < p.rows) : pixelIndex p c r w < w * p.rows := by
  unfold pixelIndex
  split
  · calc c * p.rows + r < c * p.rows + p.rows := by omega
      _ = (c + 1) * p.rows := by ring
      _ ≤ w * p.rows := Nat.mul_le_mul_right _ hc
  · calc r * w + c < r * w + w := by omega
      _ = w * (r + 1) := by ring
      _ ≤ w * p.rows := Nat.mul_le_mul_left _ hr

/-- R123: distinct pixels have distinct indices. -/
theorem pixelIndex_inj {p : Config} {c r c' r' w : Nat} (hc : c < w) (hr : r < p.rows) (hc' : c' < w) (hr' : r' < p.rows)
    (h : pixelIndex p c r w = pixelIndex p c' r' w) : c = c' ∧ r = r' := by
  have key : ∀ {n a b a' b' : Nat}, b < n → b' < n → a * n + b = a' * n + b' → a = a' ∧ b = b' := by
    intro n a b a' b' hb hb' h
    have h1 : (a * n + b) / n = (a' * n + b') / n := by rw [h]
    have h2 : (a * n + b) % n = (a' * n + b') % n := by rw [h]
    rw [Nat.add_comm, Nat.add_mul_div_right _ _ (by omega), Nat.add_comm (a' * n), Nat.add_mul_div_right _ _ (by omega),
      Nat.div_eq_of_lt hb, Nat.div_eq_of_lt hb'] at h1
    rw [Nat.add_comm, Nat.add_mul_mod_self_right, Nat.add_comm (a' * n), Nat.add_mul_mod_self_right, Nat.mod_eq_of_lt hb,
      Nat.mod_eq_of_lt hb'] at h2
    omega
  unfold pixelIndex at h
  split at h
  · exact key hr hr' h
  · exact (key hc hc' h).symm

/-- What ENCODE stores where. -/
theorem mem_encodeCells {p : Config} {s : State} {st : Style} {e : Host.Cell} :
    e ∈ encodeCells p s st ↔ ∃ c r, c < s.width ∧ r < p.rows ∧ e ∈ pixelCells (pixelIndex p c r s.width) (colorOf p s st c r) := by
  simp only [encodeCells, List.mem_flatMap, List.mem_range]
  constructor
  · rintro ⟨c, hc, r, hr, h⟩; exact ⟨c, r, hc, hr, h⟩
  · rintro ⟨c, r, hc, hr, h⟩; exact ⟨c, hc, r, hr, h⟩

/-- R122: the three stores of a pixel. -/
theorem mem_pixelCells {k : Nat} {col : Colour} {e : Host.Cell} : e ∈ pixelCells k col ↔
    ∃ j, ∃ h : j < 3, e = (0x8000 + 3 * k + j, [col.r, col.g, col.b][j]) := by
  simp only [pixelCells, regionBase]; rw [mem_byteCells]; rfl

/-- The bytes ENCODE leaves for a pixel. -/
theorem read_encodeCells {p : Config} {s : State} {m : Memory} (hm : Memory.wf m) (st : Style) {c r j : Nat} (hc : c < s.width)
    (hr : r < p.rows) (hj : j < 3) : (m.writeCells (encodeCells p s st)).read (0x8000 + 3 * pixelIndex p c r s.width + j) =
      [(colorOf p s st c r).r, (colorOf p s st c r).g, (colorOf p s st c r).b][j] := by
  refine Memory.read_writeCells_mem hm (mem_encodeCells.2 ⟨c, r, hc, hr, mem_pixelCells.2 ⟨j, hj, rfl⟩⟩) fun e he hea => ?_
  obtain ⟨c', r', hc', hr', he⟩ := mem_encodeCells.1 he
  obtain ⟨j', hj', rfl⟩ := mem_pixelCells.1 he
  simp only at hea ⊢
  obtain ⟨rfl, rfl⟩ := pixelIndex_inj hc' hr' hc hr (by omega)
  have : j' = j := by omega
  subst this; rfl

/-- R124: ENCODE's stores lie below 3·W·ROWS. -/
theorem read_encodeCells_other {p : Config} {s : State} (m : Memory) (st : Style) {a : Nat}
    (ha : a < 0x8000 ∨ 0x8000 + 3 * s.width * p.rows ≤ a) : (m.writeCells (encodeCells p s st)).read a = m.read a := by
  refine Memory.read_writeCells_other _ _ fun e he => ?_
  obtain ⟨c, r, hc, hr, he⟩ := mem_encodeCells.1 he
  obtain ⟨j, hj, rfl⟩ := mem_pixelCells.1 he
  have := pixelIndex_lt hc hr
  have h3 : 3 * s.width * p.rows = 3 * (s.width * p.rows) := by ring
  simp only [ne_eq]; omega

/-- R121. -/
theorem encodeOn_badCols {p : Config} {s : State} (h : p.maxCols < s.pixCols.toNat) : encodeOn p s = raiseError .encodeBadCols s :=
  if_pos (show s.width > p.maxCols from h)

/-- R121. -/
theorem encodeOn_badStyle {p : Config} {s : State} (h : s.pixCols.toNat ≤ p.maxCols) (hs : Style.ofField s.style = none) :
    encodeOn p s = raiseError .encodeBadStyle s := by
  rw [encodeOn, if_neg (show ¬ s.width > p.maxCols from Nat.not_lt.2 h)]; simp only [hs]

/-- R120: an ENCODE that passes both checks. -/
theorem encodeOn_ok {p : Config} {s : State} {st : Style} (h : s.pixCols.toNat ≤ p.maxCols) (hs : Style.ofField s.style = some st) :
    encodeOn p s = complete { s with
        mem      := s.mem.writeCells (encodeCells p s st)
        colorLen := BitVec.ofNat 16 (3 * s.width * p.rows) } := by
  rw [encodeOn, if_neg (show ¬ s.width > p.maxCols from Nat.not_lt.2 h)]; simp only [hs]

/-- R125: 3·W·ROWS does not wrap in COLOR_LEN. -/
theorem colorLen_toNat {p : Config} {w : Nat} (h : w ≤ p.maxCols) : (BitVec.ofNat 16 (3 * w * p.rows)).toNat = 3 * w * p.rows := by
  have h1 : p.maxCols ≤ 256 := by unfold Config.maxCols; omega
  have h2 : p.rows ≤ 32 := by unfold Config.rows; omega
  have : w * p.rows ≤ 256 * 32 := Nat.mul_le_mul (by omega) h2
  have h3 : 3 * w * p.rows = 3 * (w * p.rows) := by ring
  rw [BitVec.toNat_ofNat, Nat.mod_eq_of_lt (by omega)]

/-- R46: a matrix of at most MAX_COLS columns fits the colour buffer. -/
theorem capacity_mono {p : Config} {w : Nat} (h : w ≤ p.maxCols) : 3 * w * p.rows ≤ colorCapacity p :=
  Nat.mul_le_mul_right _ (by omega)

/-! ## Any command -/

/-- CLEAR never runs. -/
theorem ne_clear_of_running {d : Running} {i : Instr} (h : d.instr? = some i) : i ≠ .clear := by
  cases d <;> cases h <;> decide

/-- The storage a running command's completion writes: none, or its output region alone. -/
theorem exec_mem {i : Instr} {s t : State} (hi : i ≠ .clear) (h : exec i s = .next t) :
    (t.mem = s.mem ∧ t.colorLen = s.colorLen) ∨
      (i = .frame ∧ t.colorLen = s.colorLen ∧ ∃ bs : List Byte, bs.length = 16 ∧ t.mem = s.mem.writeCells (byteCells 0x0060 bs)) ∨
      (i = .sealBlock ∧ t.colorLen = s.colorLen ∧ ∃ bs : List Byte, bs.length = 16 ∧ t.mem = s.mem.writeCells (byteCells 0x0070 bs)) ∨
      (i = .render ∧ t.colorLen = s.colorLen ∧ ∃ ws : List Word, ws.length ≤ Config.device.maxCols ∧
        (∀ x ∈ ws, x &&& rowMask Config.device = x) ∧ t.mem = s.mem.writeCells (wordsCells 0x0400 ws)) ∨
      (i = .encode ∧ s.width ≤ Config.device.maxCols ∧ t.colorLen.toNat = 3 * s.width * Config.device.rows ∧
        ∃ st, t.mem = s.mem.writeCells (encodeCells Config.device s st)) := by
  cases i with
  | clear => exact absurd rfl hi
  | frame =>
    by_cases hb : 1 + s.opCount + s.argCount > 16
    · rw [show exec .frame s = _ from if_pos hb] at h; cases h; exact .inl ⟨rfl, rfl⟩
    · rw [show exec .frame s = _ from if_neg hb] at h; cases h
      exact .inr (.inl ⟨rfl, rfl, _, frameBytes_length s (by omega), rfl⟩)
  | sealBlock => cases h; exact .inr (.inr (.inl ⟨rfl, rfl, _, by simp, rfl⟩))
  | render =>
    have h' : renderOn Config.device s = t := by cases h; rfl
    subst h'
    by_cases h1 : 64 < s.textLen.toNat
    · rw [renderOn_tooLong h1]; exact .inl ⟨rfl, rfl⟩
    · by_cases h2 : Config.device.maxCols < columnCount Config.device s.textLen.toNat
      · rw [renderOn_tooWide (by omega) h2]; exact .inl ⟨rfl, rfl⟩
      · rw [renderOn_ok (by omega) (by omega)]
        exact .inr (.inr (.inr (.inl ⟨rfl, rfl, _, by rw [textColumns_length, textCodes_length]; omega, textColumns_and _ _, rfl⟩)))
  | encode =>
    have h' : encodeOn Config.device s = t := by cases h; rfl
    subst h'
    by_cases h1 : Config.device.maxCols < s.pixCols.toNat
    · rw [encodeOn_badCols h1]; exact .inl ⟨rfl, rfl⟩
    · cases hs : Style.ofField s.style with
      | none => rw [encodeOn_badStyle (by omega) hs]; exact .inl ⟨rfl, rfl⟩
      | some st =>
        rw [encodeOn_ok (by omega) hs]
        exact .inr (.inr (.inr (.inr ⟨rfl, Nat.not_lt.1 h1, colorLen_toNat (Nat.not_lt.1 h1), st, rfl⟩)))

/-- A command's completion reads neither BUSYWR, nor the schedule, nor the host, and leaves them as they are. -/
theorem exec_of_running (i : Instr) (s : State) (b : Bool) (n k : Nat) (ho : HostAgent) (hi : i ≠ .clear) :
    ∀ u, exec i s = .next u → exec i { s with status := { s.status with busyWr := b }, wait := n, draws := k, host := ho } =
      .next { u with status := { u.status with busyWr := b }, wait := n, draws := k, host := ho } := by
  intro u hu
  -- the state the command meets instead, under a name of its own
  let s' : State := { s with status := { s.status with busyWr := b }, wait := n, draws := k, host := ho }
  cases i with
  | clear => exact absurd rfl hi
  | frame =>
    by_cases h : 1 + s.opCount + s.argCount > 16
    · rw [show exec .frame s = _ from if_pos h] at hu
      cases hu; exact if_pos h
    · rw [show exec .frame s = _ from if_neg h] at hu
      cases hu; exact if_neg h
  | sealBlock => cases hu; rfl
  | render =>
    simp only [exec, execRender] at hu ⊢; cases hu
    by_cases h : 64 < s.textLen.toNat
    · rw [renderOn_tooLong h, renderOn_tooLong (s := s') h]; rfl
    · rw [Nat.not_lt] at h
      by_cases h' : Config.device.maxCols < columnCount Config.device s.textLen.toNat
      · rw [renderOn_tooWide h h', renderOn_tooWide (s := s') h h']; rfl
      · rw [Nat.not_lt] at h'
        rw [renderOn_ok h h', renderOn_ok (s := s') h h']; rfl
  | encode =>
    simp only [exec, execEncode] at hu ⊢; cases hu
    by_cases h : Config.device.maxCols < s.pixCols.toNat
    · rw [encodeOn_badCols h, encodeOn_badCols (s := s') h]; rfl
    · rw [Nat.not_lt] at h
      cases hs : Style.ofField s.style with
      | none => rw [encodeOn_badStyle h hs, encodeOn_badStyle (s := s') h hs]; rfl
      | some st => rw [encodeOn_ok h hs, encodeOn_ok (s := s') h hs]; rfl

end Sys2Proof.Machine
end

