-- ==== Sys2Proof/Laws/PerInstr.lean ====
section
/-! SUPPORT. The family of laws proved once per command: every command is well formed, and the decoder gives it back from its one
encoding (spec/30_encoding.md R81, R82, R84). -/

namespace Sys2Proof.Laws.DecodeEncode

/-- R81, R82, R84: the command is well formed, and decoding its encoding gives the command. -/
def Statement (i : Instr) : Prop := i.wellFormed = true ∧ decode (encode i) = .legal i

theorem clear : Statement .clear := by unfold Statement; decide

theorem frame : Statement .frame := by unfold Statement; decide

theorem sealBlock : Statement .sealBlock := by unfold Statement; decide

theorem render : Statement .render := by unfold Statement; decide

theorem encode : Statement .encode := by unfold Statement; decide

end Sys2Proof.Laws.DecodeEncode
end

