-- ==== Sys2Proof/Laws/Runs.lean ====
section
/-! SUPPORT. What host accesses, the host's turn and runs of steps do, said once. -/

namespace Sys2Proof.Machine

/-! ## Host accesses -/

/-- R61: a write to any offset but CMD while IDLE. -/
theorem hostWrite_idle {s : State} {off : Nat} (hp : s.phase = .idle) (h : off ≠ cmdOffset) (v : Word) :
    hostWrite s off v = .next (memWrite Config.device (target off) v s) := by
  obtain ⟨t, ht, hc⟩ := hostWrite_next s off v
  rcases hc with ⟨h1, -⟩ | ⟨-, h2, -⟩ | ⟨-, h2, -⟩ | ⟨-, -, rfl⟩
  · exact absurd hp h1
  · exact absurd h2 h
  · exact absurd h2 h
  · exact ht

/-- R60: while IDLE a read returns the stored value. -/
theorem hostRead_idle {s : State} (hp : s.phase = .idle) (off : Nat) : hostRead s off = (memRead Config.device s off, s) := by
  rw [hostRead, hp, if_neg (by simp [unspecifiedRead])]

/-- R69: a register that no command outputs reads as stored in every phase. -/
theorem hostRead_fixed {s : State} {off : Nat} (h : off < 0x40) (h' : registerAt off ≠ .pixCols) (h'' : registerAt off ≠ .colorLen) :
    hostRead s off = (memRead Config.device s off, s) := by
  rw [hostRead, if_neg]
  rw [target_register h]
  have hi := registerAt_isRegion h
  cases s.phase with
  | idle => simp [unspecifiedRead]
  | init => simp [unspecifiedRead, hi]
  | busy d => cases hr : registerAt off <;> cases d <;> simp_all [unspecifiedRead, Running.outputs, Target.isRegion]

/-- R61, R64: a write to a read-write byte region while IDLE stores the word's four bytes. -/
theorem hostWrite_bytes {s : State} {off : Nat} (hp : s.phase = .idle)
    (hr : (0x0040 ≤ off ∧ off < 0x0070) ∨ (0x0100 ≤ off ∧ off < 0x0140)) (v : Word) :
    hostWrite s off v = .next { s with mem := s.mem.writeCells (wordCells off v) } := by
  rw [hostWrite_idle hp (by simp only [cmdOffset]; omega)]
  have : (0x40 ≤ off ∧ off < 0x50) ∨ (0x50 ≤ off ∧ off < 0x60) ∨ (0x60 ≤ off ∧ off < 0x70) ∨ (0x0100 ≤ off ∧ off < 0x0140) := by omega
  rcases this with h | h | h | h
  · rw [target_opcodeBuf h.1 h.2]; simp only [memWrite, regionBase, show 0x40 + (off - 0x40) = off by omega]
  · rw [target_argsBuf h.1 h.2]; simp only [memWrite, regionBase, show 0x50 + (off - 0x50) = off by omega]
  · rw [target_blockIn h.1 h.2]; simp only [memWrite, regionBase, show 0x60 + (off - 0x60) = off by omega]
  · rw [target_textBuf h.1 h.2]; simp only [memWrite, regionBase, show 0x100 + (off - 0x100) = off by omega]

/-! ## The host's turn -/

/-- A step in which the host runs `stmt`. -/
theorem hostRuns_step {s : State} {stmt : HostStmt} (h : s.hostRuns stmt) :
    ∃ n, (s.phase = .idle ∧ n = s.wait ∨ s.phase ≠ .idle ∧ s.wait = n + 1) ∧ step s = runStmt { s with wait := n } stmt := by
  obtain ⟨h1, h2⟩ := h
  rcases step_eq s with ⟨hp, he⟩ | ⟨hp, hw, he⟩ | ⟨hp, n, hw, he⟩
  · exact ⟨s.wait, .inl ⟨hp, rfl⟩, by rw [he, hostStep, h1]⟩
  · exfalso; rcases h2 with h2 | h2 <;> [exact hp h2; omega]
  · exact ⟨n, .inr ⟨hp, hw⟩, by rw [he, hostStep]; simp only [h1]⟩

/-- While the phase is IDLE the step in which the host runs `stmt` is that statement. -/
theorem hostRuns_idle {s : State} {stmt : HostStmt} (hp : s.phase = .idle) (h : s.hostRuns stmt) :
    step s = runStmt s stmt := by
  obtain ⟨n, hn, he⟩ := hostRuns_step h
  rcases hn with ⟨-, rfl⟩ | ⟨h', -⟩
  · exact he
  · exact absurd hp h'

/-- A well-formed host statement other than CHECK always goes on. -/
theorem runStmt_progress (s : State) {stmt : HostStmt} (hw : stmt.wellFormed = true) (hc : ∀ x m v, stmt ≠ .check x m v) :
    ∃ t, runStmt s stmt = .next t := by
  cases stmt with
  | write width off v =>
    simp only [runStmt, accessError_of_wellFormed hw]
    obtain ⟨t, ht, -⟩ := hostWrite_next s.hostAdvance off v
    exact ⟨t, ht⟩
  | read width off x =>
    simp only [runStmt, accessError_of_wellFormed hw]
    exact ⟨_, rfl⟩
  | bnz x mask k => simp only [runStmt]; split_ifs <;> exact ⟨_, rfl⟩
  | check x m v => exact absurd rfl (hc x m v)
  | pulseRst => exact ⟨_, rfl⟩

/-! ## Steps and runs -/

/-- While the engine is not IDLE and not yet due, a step is the host's, and but for reset it changes nothing of SMFE but BUSYWR. -/
theorem step_while_running {s t : State} {n : Nat} (hp : s.phase ≠ .idle) (hw : s.wait = n + 1) (hr : neverResets s)
    (h : step s = .next t) :
    t = { s with
      status := { s.status with busyWr := t.status.busyWr }
      wait := n
      draws := t.draws
      host := t.host } ∧ t.host.prog = s.host.prog := by
  rcases step_next h with ⟨-, h0, -⟩ | ⟨-, h0, -⟩ | ⟨d, i, ⟨-, h0⟩, -⟩ | ⟨m, hm, hc⟩
  · omega
  · omega
  · omega
  · have hmn : m = n := by rcases hm with h | h <;> [exact absurd h hp; omega]
    subst hmn
    rcases hc with ⟨host, draws, rfl, hpr, -⟩ | ⟨hpulse, -⟩ | ⟨off, v, -, -, -, hc⟩
    · exact ⟨rfl, hpr⟩
    · exact absurd (List.mem_of_getElem? hpulse.1) hr
    · rcases hc with ⟨-, rfl⟩ | ⟨h1, -⟩ | ⟨h1, -⟩ | ⟨h1, -⟩
      · exact ⟨rfl, rfl⟩
      · exact absurd h1 hp
      · exact absurd h1 hp
      · exact absurd h1 hp

/-- A step goes on when every statement of the host is well formed and none is a CHECK. -/
theorem step_progress (s : State) (h : ∀ stmt ∈ s.host.prog, stmt.wellFormed = true ∧ ∀ x m v, stmt ≠ .check x m v) :
    ∃ t, step s = .next t := by
  have host : ∀ u : State, u.host = s.host → ∃ t, hostStep u = .next t := by
    intro u hu
    unfold hostStep
    rw [hu]
    split
    · rename_i stmt hs
      obtain ⟨h1, h2⟩ := h stmt (List.mem_of_getElem? hs)
      exact runStmt_progress u h1 h2
    · exact ⟨_, rfl⟩
  rcases step_eq s with ⟨-, he⟩ | ⟨-, -, he⟩ | ⟨-, n, -, he⟩ <;> rw [he]
  · exact host s rfl
  · obtain ⟨t, ht, -⟩ := engineStep_next s; exact ⟨t, ht⟩
  · exact host _ rfl

/-- A run whose first step goes on. -/
theorem run_next {k : Nat} {s t : State} (h : step s = .next t) :
    Sys2Proof.core.run (k + 1) s = Sys2Proof.core.run k t := by
  simp only [Host.Core.run]
  rw [show Sys2Proof.core.step s = .next t from h]

/-- A run whose first step faults. -/
theorem run_fault {k : Nat} {s : State} {r : Fault} (h : step s = .fault r) :
    Sys2Proof.core.run (k + 1) s = .fault r := by
  simp only [Host.Core.run]
  rw [show Sys2Proof.core.step s = .fault r from h]

/-- A run whose first step is refused. -/
theorem run_refused {k : Nat} {s : State} {r : Refusal} (h : step s = .refused r) :
    Sys2Proof.core.run (k + 1) s = .refused r := by
  simp only [Host.Core.run]
  rw [show Sys2Proof.core.step s = .refused r from h]

/-- The last step of a run. -/
theorem run_split (k : Nat) : ∀ {s t : State}, Sys2Proof.core.run (k + 1) s = .next t →
    ∃ u, Sys2Proof.core.run k s = .next u ∧ step u = .next t := by
  induction k with
  | zero =>
    intro s t h
    refine ⟨s, rfl, ?_⟩
    cases hs : step s with
    | next u => rw [run_next hs] at h; exact h
    | fault r => exact absurd h (by rw [run_fault hs]; simp)
    | refused r => exact absurd h (by rw [run_refused hs]; simp)
  | succ k ih =>
    intro s t h
    cases hs : step s with
    | next u =>
      rw [run_next hs] at h
      obtain ⟨w, hw, ht⟩ := ih h
      exact ⟨w, by rw [run_next hs]; exact hw, ht⟩
    | fault r => exact absurd h (by rw [run_fault hs]; simp)
    | refused r => exact absurd h (by rw [run_refused hs]; simp)

/-- A run while the engine is not yet due. -/
theorem run_while_running (k : Nat) : ∀ {s t : State}, s.phase ≠ .idle → k ≤ s.wait → neverResets s →
    Sys2Proof.core.run k s = .next t →
    t = { s with
      status := { s.status with busyWr := t.status.busyWr }
      wait := s.wait - k
      draws := t.draws
      host := t.host } ∧ t.host.prog = s.host.prog := by
  induction k with
  | zero => intro s t hp hk hr h; cases h; exact ⟨rfl, rfl⟩
  | succ k ih =>
    intro s t hp hk hr h
    obtain ⟨n, hn⟩ : ∃ n, s.wait = n + 1 := ⟨s.wait - 1, by omega⟩
    cases hs : step s with
    | next u =>
      rw [run_next hs] at h
      obtain ⟨hu, hpu⟩ := step_while_running hp hn hr hs
      obtain ⟨ht, hpt⟩ := ih (s := u) (by rw [hu]; exact hp) (by rw [hu]; simp only; omega) (by unfold neverResets; rw [hpu]; exact hr) h
      refine ⟨?_, hpt.trans hpu⟩
      rw [ht, hu]
      simp [hn]
    | fault r => exact absurd h (by rw [run_fault hs]; simp)
    | refused r => exact absurd h (by rw [run_refused hs]; simp)

/-- A run continues from where its first part ends. -/
theorem run_add (a b : Nat) : ∀ {s u : State}, Sys2Proof.core.run a s = .next u →
    Sys2Proof.core.run (a + b) s = Sys2Proof.core.run b u := by
  induction a with
  | zero => intro s u h; cases h; rw [Nat.zero_add]
  | succ a ih =>
    intro s u h
    cases hs : step s with
    | next w =>
      rw [run_next hs] at h
      rw [show a + 1 + b = (a + b) + 1 by omega, run_next hs]; exact ih h
    | fault r => exact absurd h (by rw [run_fault hs]; simp)
    | refused r => exact absurd h (by rw [run_refused hs]; simp)

/-- A run of well-formed statements up to the engine's turn goes on. -/
theorem run_progress (k : Nat) : ∀ {s : State}, s.phase ≠ .idle → k ≤ s.wait + 1 → neverResets s →
    (∀ stmt ∈ s.host.prog, stmt.wellFormed = true ∧ ∀ x m v, stmt ≠ .check x m v) →
    ∃ t, Sys2Proof.core.run k s = .next t := by
  induction k with
  | zero => intro s _ _ _ _; exact ⟨s, rfl⟩
  | succ k ih =>
    intro s hp hk hr hwf
    obtain ⟨u, hu⟩ := step_progress s hwf
    rw [run_next hu]
    cases hw : s.wait with
    | zero =>
      have : k = 0 := by omega
      subst this; exact ⟨u, rfl⟩
    | succ n =>
      obtain ⟨he, hpu⟩ := step_while_running hp hw hr hu
      exact ih (s := u) (by rw [he]; exact hp) (by rw [he]; simp only; omega) (by unfold neverResets; rw [hpu]; exact hr) (by rw [hpu]; exact hwf)

end Sys2Proof.Machine
end

