-- ==== Sys2Proof/Tests/Slice0.lean ====
section
/-! SUPPORT. Tests. Expected values come from spec/95_test_vectors.md (each test names its vector) or are written out from the
rules. The test configuration TC is that file's section 2; it is not the device's. The `witness_…` theorems show, for each
statement with hypotheses, that something meets them, at the ends of their ranges. -/

namespace Sys2Proof.Tests

open Sys2Proof.Machine

/-! ## The test configuration and states -/

/-- TC's glyphs: 'H', 'I' and ' '. -/
def tcGlyph (c : Byte) : Option (Vector (BitVec 5) 3) :=
  if c = 0x48#8 then some #v[0x1F#5, 0x04#5, 0x1F#5]
  else if c = 0x49#8 then some #v[0x11#5, 0x1F#5, 0x11#5]
  else if c = 0x20#8 then some #v[0x00#5, 0x00#5, 0x00#5]
  else none

/-- TC's WAVE_ROW. -/
def tcWave (c _w : Nat) : Fin 5 :=
  match c % 8 with
  | 0 => 2
  | 1 => 3
  | 2 => 4
  | 3 => 3
  | 4 => 2
  | 5 => 1
  | 6 => 0
  | _ => 1

/-- TC leaves the cipher open; here it reverses the block. -/
def tcCipher : CipherConfig where
  keyBits     := 0
  key         := 0#0
  atKey       := { toFun := Vector.reverse, invFun := Vector.reverse, left_inv := fun b => by simp, right_inv := fun b => by simp }
  atOtherKeys := fun _ b => b

/-- 95_test_vectors.md section 2: the test configuration TC. -/
def tc : Config where
  rowsPred    := 4
  gwPred      := 2
  glyph       := tcGlyph
  maxColsPred := 15
  cipherKey   := tcCipher
  scanOrder   := .colMajor
  dotPred     := 1
  blockPred   := 1
  waveRow     := tcWave
  basePage    := 0
  rstKind     := { synchronous := true, activeHigh := true }

/-- TC in row-major order. -/
def tcRow : Config := { tc with scanOrder := .rowMajor }

/-- The state after INIT, with no host program. -/
def idle : State := { State.reset with phase := .idle, wait := 0 }

/-- The engine running `d`, due after `n` more steps of the host. -/
def running (d : Running) (n : Nat) : State := { idle with phase := .busy d, wait := n }

/-- Reset initialisation, to end after `n` more steps of the host. -/
def initial (n : Nat) : State := { State.reset with wait := n }

/-- A state with bytes stored from an offset upward. -/
def store (s : State) (a : Nat) (bs : List Byte) : State := { s with mem := s.mem.writeCells (byteCells a bs) }

/-- A state with columns stored from column 0 of PIX on, and PIX_COLS their number. -/
def draw (s : State) (cols : List Word) : State :=
  { s with mem := s.mem.writeCells (wordsCells 0x0400 cols), pixCols := BitVec.ofNat 9 cols.length }

/-- The next state of an outcome, for looking into it. -/
def after (r : Result) : State :=
  match r with
  | .next t => t
  | .fault _ => State.reset
  | .refused _ => State.reset

/-- Whether an outcome is a refusal for this reason. -/
def refusedFor (r : Result) (why : Refusal) : Bool :=
  match r with
  | .refused w => w = why
  | .next _ => false
  | .fault _ => false

/-- The operands of FR-1 to FR-6: opcode "ABCDEFGHIJ", arguments 1 to 6. -/
def frameState (l a : Nat) : State :=
  { store (store idle 0x0040 [0x41, 0x42, 0x43, 0x44, 0x45, 0x46, 0x47, 0x48, 0x49, 0x4A]) 0x0050 [1, 2, 3, 4, 5, 6] with
    opLen := BitVec.ofNat 5 l, argLen := BitVec.ofNat 5 a }

/-- A text to render. -/
def textState (bs : List Byte) : State := { store idle 0x0100 bs with textLen := BitVec.ofNat 8 bs.length }

/-- EN-8's matrix and colours. -/
def en8 : State := { draw idle [0x01, 0x1E] with fgColor := { r := 0xFF, g := 0xFF, b := 0xFF } }

/-! ## Well-formedness: an ill-formed term for each check -/

theorem test_refuses_width : wellFormedAccess 8 0x0060 = false := by decide
theorem test_refuses_misaligned : wellFormedAccess 32 0x0062 = false := by decide
theorem test_refuses_outside : wellFormedAccess 32 0x10000 = false := by decide
theorem test_refuses_write : (HostStmt.write 16 0x0060 0).wellFormed = false := by decide
theorem test_refuses_read : (HostStmt.read 32 0x0063 0).wellFormed = false := by decide
theorem test_refuses_wr_line : (Line.wr 0x0041 0).wellFormed = false := by decide
theorem test_refuses_rd_line : (Line.rd 0x10004 0).wellFormed = false := by decide
theorem test_refuses_long_wrbytes : (Line.wrbytes .argsBuf (List.replicate 17 0)).wellFormed = false := by decide
theorem test_refuses_long_text : (Line.text (List.replicate 65 0)).wellFormed = false := by decide
theorem test_refuses_long_frameop : (Line.frameop (List.replicate 17 0) []).wellFormed = false := by decide
theorem test_refuses_undeclared_label : wellFormedProgram [.bnz 0 1 7] = false := by decide
theorem test_refuses_label_twice : wellFormedProgram [.label 7, .wr 0x0040 0, .label 7] = false := by decide
theorem test_accepts_program : wellFormedProgram [.label 7, .rd 0x0010 0, .bnz 0 1 7] = true := by decide

/-! ## Decoding: each word of R81 written out, RSVD and OP -/

theorem test_decode_clear : decode 0b00000000000000000000000000000000#32 = .legal .clear := by decide
theorem test_decode_frame : decode 0b00000000000000000000000000000001#32 = .legal .frame := by decide
theorem test_decode_seal : decode 0b00000000000000000000000000000010#32 = .legal .sealBlock := by decide
theorem test_decode_render : decode 0b00000000000000000000000000000011#32 = .legal .render := by decide
theorem test_decode_encode : decode 0b00000000000000000000000000000100#32 = .legal .encode := by decide
theorem test_decode_unassigned : decode 0b00000000000000000000000000000101#32 = .illegal .opcodeUnassigned := by decide
/-- CC-3. -/
theorem test_decode_reserved : decode 0x00000101#32 = .illegal .reservedNotZero := by decide
theorem test_decode_table : decodeTableWord 32 2 = some .sealBlock ∧ decodeTableWord 32 5 = none := by decide

/-! ## Each command, one step -/

/-- CC-1: from STATUS = 0x0001020E, CLEAR gives 0. -/
theorem test_clear_cc1 : (after (exec .clear { idle with status :=
    { done := true, err := true, busyWr := true, errCode := 0x02, lastOp := 0x01 } })).statusWord = 0x00000000#32 := by decide

/-- FR-1: BLOCK_IN = 05 41 42 43 01 02 and zeros (as MA-2's words). -/
theorem test_frame_fr1 : let t := after (exec .frame (frameState 3 2))
    t.mem.readWord 0x0060 = 0x43424105#32 ∧ t.mem.readWord 0x0064 = 0x00000201#32 ∧ t.mem.readWord 0x0068 = 0 ∧
      t.mem.readWord 0x006C = 0 := by decide

/-- FR-6: FRAME_OVERFLOW, STATUS = 0x00010206 (P3). -/
theorem test_frame_fr6 : (after (exec .frame { frameState 10 6 with status := { Status.zero with lastOp := 0x01 } })).statusWord =
    0x00010206#32 := by decide

/-- R150, R151: byte i of the cipher's output goes to BLOCK_OUT[i] (TC's cipher reverses the block). -/
theorem test_seal_bytes : let t := sealOn tc (store idle 0x0060 [0x01, 0x02])
    t.byteAt 0x007F = 0x01 ∧ t.byteAt 0x007E = 0x02 ∧ t.byteAt 0x0070 = 0x00 ∧ t.byteAt 0x0060 = 0x01 := by decide +kernel

/-- SE-3: STATUS = 0x00020002. -/
theorem test_seal_se3 : (after (exec .sealBlock { idle with status := { Status.zero with lastOp := 0x02 } })).statusWord =
    0x00020002#32 := by decide

/-- RD-4: "H?IH" is fifteen columns, the unknown character blank. -/
theorem test_render_rd4 : let t := renderOn tc (textState [0x48, 0x3F, 0x49, 0x48])
    t.pixCols = 15 ∧ (List.range 15).map (t.pixColumn tc) =
      [0x1F, 0x04, 0x1F, 0, 0, 0, 0, 0, 0x11, 0x1F, 0x11, 0, 0x1F, 0x04, 0x1F] := by decide +kernel

/-- RD-5: "HHHHH" is too wide. -/
theorem test_render_rd5 : (renderOn tc (textState [0x48, 0x48, 0x48, 0x48, 0x48])).status.errCode = 0x03 := by decide +kernel

/-- EN-8, both orders: the bytes of COLOR_BUF. -/
theorem test_encode_en8 :
    (List.range 30).map (fun k => (encodeOn tc en8).byteAt (0x8000 + k)) =
      [0xFF, 0xFF, 0xFF, 0, 0, 0, 0, 0, 0, 0, 0, 0, 0, 0, 0, 0, 0, 0, 0xFF, 0xFF, 0xFF, 0xFF, 0xFF, 0xFF, 0xFF, 0xFF, 0xFF, 0xFF,
        0xFF, 0xFF] ∧
    (List.range 30).map (fun k => (encodeOn tcRow en8).byteAt (0x8000 + k)) =
      [0xFF, 0xFF, 0xFF, 0, 0, 0, 0, 0, 0, 0xFF, 0xFF, 0xFF, 0, 0, 0, 0xFF, 0xFF, 0xFF, 0, 0, 0, 0xFF, 0xFF, 0xFF, 0, 0, 0,
        0xFF, 0xFF, 0xFF] ∧
    (encodeOn tc en8).colorLen = 30 := by decide +kernel

/-- EN-13: the width is checked before the style. -/
theorem test_encode_en13 : (encodeOn tc { idle with pixCols := 17, style := 5 }).status.errCode = 0x05 := by decide

/-! ## Decoration geometry: EN-7's regions, rows 0, 1 and 2 -/

theorem test_deco_lines : (List.range 5).map (fun r => deco tc .lines 3 r 8) = [true, false, false, false, true] := by decide
theorem test_deco_dots : (List.range 8).map (fun c => deco tc .dots c 0 8) =
    [true, false, true, false, true, false, true, false] := by decide
theorem test_deco_blocks : (List.range 8).map (fun c => deco tc .blocks c 2 8) =
    [true, true, false, false, true, true, false, false] := by decide
theorem test_deco_waves : (List.range 8).map (fun c => deco tc .waves c 1 8) =
    [false, false, false, false, false, true, false, true] := by decide

/-! ## Host accesses -/

/-- MA-1: the lowest offset is bits 7:0. -/
theorem test_write_ma1 : let t := after (hostWrite idle 0x0040 0x00434241)
    (t.byteAt 0x0040, t.byteAt 0x0041, t.byteAt 0x0042, t.byteAt 0x0043) = (0x41, 0x42, 0x43, 0x00) := by decide

/-- MA-3, MA-4: PIX words hold ROWS bits, and none at or beyond MAX_COLS. -/
theorem test_pix_ma3_ma4 : memRead tc (memWrite tc (target 0x0400) 0xFFFFFFFF idle) 0x0400 = 0x0000001F#32 ∧
    memRead tc (memWrite tc (target 0x0440) 0x1F idle) 0x0440 = 0x00000000#32 := by decide

/-- MA-6 to MA-11: the registers read back their fields. -/
theorem test_registers_ma6_ma11 :
    ([(0x0008, 0xFFFFFFFF), (0x002C, 0xFFFFFFFF), (0x0030, 0xFFFFFFFF), (0x0034, 0x1234), (0x0038, 0xFFFF),
        (0x0020, 0xAABBCCDD)] : List (Nat × Word)).map (fun e => (hostRead (after (hostWrite idle e.1 e.2)) e.1).1) =
      [0x00000001, 0x00000107, 0x00001F1F, 0x00000034, 0x000001FF, 0x00BBCCDD] := by decide

/-- 95_test_vectors.md section 2: PARAM in TC. -/
theorem test_param : paramWord tc = 0x00100305#32 := by decide

/-- MA-12: RAZ beyond 3·MAX_COLS·ROWS. -/
theorem test_color_ma12 : memRead tc (store idle 0x80F0 [0xFF]) 0x80F0 = 0x00000000#32 := by decide

/-- MA-16: the refused accesses. -/
theorem test_refused_ma16 : refusedFor (runStmt idle (.read 8 0x0060 0)) (.accessWidth 8 0x0060) = true ∧
    refusedFor (runStmt idle (.read 32 0x0062 0)) (.misaligned 0x0062) = true := by decide

/-- CC-7: a write while busy sets BUSYWR alone; STATUS = 0x0003000A after completion. -/
theorem test_busy_cc7 : let s := { running .render 1 with status := { Status.zero with lastOp := 0x03 } }
    let t := after (hostWrite s 0x0034 3)
    t.textLen = 0 ∧ (renderOn tc t).statusWord = 0x0003000A#32 := by decide

/-- CC-10 to CC-12: `irq`. -/
theorem test_irq_cc10 : let s := { running .sealBlock 0 with irqEn := true }
    s.irq = false ∧ (after (exec .sealBlock s)).irq = true ∧ (after (hostWrite (after (exec .sealBlock s)) 0x0008 0)).irq = false := by
  decide

/-- RS-1, RS-4: STATUS during INIT, and after it when a write was dropped. -/
theorem test_init_rs4 : let t := after (hostWrite (initial 1) 0x0008 1)
    (initial 1).statusWord = 0x00000011#32 ∧ (endInit t).statusWord = 0x00000008#32 ∧ (endInit t).ctrlWord = 0 := by decide

/-! ## Placing and running a command -/

theorem test_step_runs_clear :
    step (State.reset.withFetchWord 32 0) = exec .clear (State.reset.withFetchWord 32 0).hostAdvance := rfl
theorem test_step_runs_frame : step (State.reset.withFetchWord 32 1) = exec .frame (State.reset.withFetchWord 32 1) := rfl
theorem test_step_runs_seal : step (State.reset.withFetchWord 32 2) = exec .sealBlock (State.reset.withFetchWord 32 2) := rfl
theorem test_step_runs_render : step (State.reset.withFetchWord 32 3) = exec .render (State.reset.withFetchWord 32 3) := rfl
theorem test_step_runs_encode : step (State.reset.withFetchWord 32 4) = exec .encode (State.reset.withFetchWord 32 4) := rfl

/-- P1's first statements expand to the accesses its "Encoding" lists; the fresh variables are the model's own (assumption 13). -/
theorem test_assemble_p1 : assemble [.frameop [0x41, 0x42, 0x43] [0x01, 0x02], .run .sealBlock, .rd 0x0060 0] =
    some [.write 32 0x0040 0x00434241, .write 32 0x0050 0x00000201, .write 32 0x0030 0x00000203, .write 32 0x000C 0x00000001,
      .read 32 0x0010 4, .bnz 4 1 4, .write 32 0x000C 0x00000002, .read 32 0x0010 7, .bnz 7 1 7, .read 32 0x0060 0] := by decide

/-- P2's TEXT, COLOR and SCHEMESET. -/
theorem test_assemble_p2 : assemble [.text [0x48, 0x49], .color .fg 0xF0 0x01 0x02, .color .deco 0x0D 0x0E 0x0F, .schemeset 1 1] =
    some [.write 32 0x0100 0x00004948, .write 32 0x0034 0x00000002, .write 32 0x0020 0x000201F0, .write 32 0x0028 0x000F0E0D,
      .write 32 0x002C 0x00000101] := by decide

/-! ## Witnesses: concrete states that meet the hypotheses of each statement -/

/-- A host about to run one statement. -/
def hosting (s : State) (stmt : HostStmt) : State := s.withHostProgram [stmt]

theorem witness_StepRunsTheDecodedCommand :
    ((running .encode 0).engineCompletes .encode ∧ Running.encode.instr? = some .encode) ∧
      (let s := hosting idle (.write 32 cmdOffset 0);
        s.phase = .idle ∧ s.hostRuns (.write 32 cmdOffset 0) ∧ decode 0 = .legal .clear) ∧
      (let s := hosting idle (.write 32 cmdOffset 4);
        s.phase = .idle ∧ s.hostRuns (.write 32 cmdOffset 4) ∧ decode 4 = .legal .encode ∧ Instr.encode ≠ .clear) :=
  ⟨⟨⟨rfl, rfl⟩, rfl⟩, ⟨rfl, ⟨rfl, .inl rfl⟩, by decide⟩, ⟨rfl, ⟨rfl, .inl rfl⟩, by decide, by decide⟩⟩

theorem witness_AcceptanceRecordsTheCommand : idle.phase = .idle ∧ decode 0x00000001 ≠ .legal .clear ∧
    decode 0xFFFFFFFF ≠ .legal .clear := by decide

theorem witness_EveryCompletionEndsIdleAndDone : Instr.frame ≠ .clear ∧ (after (exec .frame (frameState 15 1))).status.err = true ∧
    Instr.render ≠ .encode := by decide

theorem witness_ClearAcknowledgesStatus : idle.phase = .idle ∧ (running .frame 3).phase ≠ .idle ∧ (initial 0).phase ≠ .idle := by
  decide

theorem witness_IllegalWordFails :
    (idle.phase = .idle ∧ (0x00000100#32).extractLsb' 8 24 ≠ 0#24 ∧ 0x05 ≤ ((0x00000005#32).extractLsb' 0 8).toNat) ∧
      (running .illegal 0).engineCompletes .illegal := ⟨by decide, rfl, rfl⟩

theorem witness_FrameBuildsTheBlock : let s := frameState 10 5
    Memory.wf s.mem ∧ 1 + s.opLen.toNat + s.argLen.toNat ≤ 16 ∧ 9 < s.opLen.toNat ∧ 4 < s.argLen.toNat ∧
      (let e := frameState 0 0;
        Memory.wf e.mem ∧ 1 + e.opLen.toNat + e.argLen.toNat ≤ 16 ∧ e.opLen.toNat + e.argLen.toNat + 1 ≤ 15) := by decide

theorem witness_FrameOverflowWritesNothing : let s := frameState 10 6
    16 < 1 + s.opLen.toNat + s.argLen.toNat ∧ ∃ t, exec .frame s = .next t := ⟨by decide, _, rfl⟩

theorem witness_SealEncryptsTheBlock : Memory.wf (store idle 0x0060 [1, 2, 3]).mem := by decide

theorem witness_SealIsInjectiveAndMemoryless : let s := store idle 0x0060 [1, 2, 3]
    Memory.wf s.mem ∧ Memory.wf idle.mem ∧ (∃ t, exec .sealBlock s = .next t) ∧ ∃ t, exec .sealBlock idle = .next t :=
  ⟨by decide, by decide, ⟨_, rfl⟩, _, rfl⟩

theorem witness_RenderDrawsTheText :
    (let s := textState [0x48, 0x3F, 0x49, 0x48];
      Memory.wf s.mem ∧ s.textLen.toNat ≤ 64 ∧ columnCount tc s.textLen.toNat ≤ tc.maxCols ∧ 3 < s.textLen.toNat ∧ 2 < tc.gw ∧
        2 + 1 < s.textLen.toNat) ∧
      (let e := textState [];
        Memory.wf e.mem ∧ e.textLen.toNat ≤ 64 ∧ columnCount tc e.textLen.toNat ≤ tc.maxCols ∧ e.textLen.toNat = 0) := by decide

theorem witness_RenderRefusesWhatDoesNotFit :
    64 < ({ idle with textLen := 65 } : State).textLen.toNat ∧
      (let s : State := { idle with textLen := 5 };
        1 ≤ s.textLen.toNat ∧ s.textLen.toNat ≤ 64 ∧ tc.maxCols < s.textLen.toNat * tc.gw + (s.textLen.toNat - 1)) := by decide

theorem witness_LargestRenderableText : ({ idle with textLen := 64 } : State).textLen.toNat ≤ 64 := by decide

theorem witness_EncodeColoursEveryPixel : let s : State := { idle with pixCols := 16, style := 4 }
    Memory.wf s.mem ∧ s.pixCols.toNat ≤ tc.maxCols ∧ Style.ofField s.style = some .waves ∧ 15 < s.pixCols.toNat ∧ 4 < tc.rows := by
  decide

theorem witness_EncodeChecksItsOperands :
    tc.maxCols < ({ idle with pixCols := 17 } : State).pixCols.toNat ∧
      (let s : State := { idle with pixCols := 16, style := 5 };
        s.pixCols.toNat ≤ tc.maxCols ∧ 5 ≤ s.style.toNat) := by decide

theorem witness_PixelIndexIsABijection : tc.scanOrder = .colMajor ∧ tcRow.scanOrder = .rowMajor ∧ 6 < 7 ∧ 4 < tc.rows ∧
    pixelIndex tc 6 4 7 = pixelIndex tc 6 4 7 ∧ 34 < 7 * tc.rows := by decide

theorem witness_DecorationRegions : Style.ofField 0 = some .plain ∧ Style.ofField 1 = some .lines ∧
    Style.ofField 2 = some .dots ∧ Style.ofField 3 = some .blocks ∧ Style.ofField 4 = some .waves ∧
    (4#3).toNat ≤ 4 ∧ ¬ (5#3).toNat ≤ 4 := by decide

theorem witness_UnifiedModeIgnoresTheStyle :
    idle.sep = false ∧ ({ idle with style := 4 } : State).style.toNat ≤ 4 ∧ (4#3).toNat ≤ 4 := by decide

theorem witness_UndecoratedEncodeNeverUsesDecoColor :
    (let s : State := { idle with style := 0, sep := true, pixCols := 16 };
      s.style = 0#3 ∧ Memory.wf s.mem ∧ s.pixCols.toNat ≤ tc.maxCols ∧ s.style.toNat ≤ 4 ∧ 79 < s.pixCols.toNat * tc.rows) ∧
      (let s : State := { idle with style := 4, sep := false, pixCols := 1 };
        s.sep = false ∧ Memory.wf s.mem ∧ s.pixCols.toNat ≤ tc.maxCols ∧ s.style.toNat ≤ 4 ∧ 4 < s.pixCols.toNat * tc.rows) := by
  decide

/-- Two states that agree on ENCODE's operands and differ elsewhere: in an earlier colour buffer and in another register. -/
theorem witness_EncodeIsAPureFunctionOfItsOperands :
    let s : State := { idle with pixCols := 16, style := 4, sep := true }
    let s' : State := { store s 0x8000 [1, 2, 3] with textLen := 3 }
    Memory.wf s.mem ∧ Memory.wf s'.mem ∧ s.pixCols = s'.pixCols ∧ s.style = s'.style ∧ s.sep = s'.sep ∧ s.fgColor = s'.fgColor ∧
      s.bgColor = s'.bgColor ∧ s.decoColor = s'.decoColor ∧
      (∀ c, c < s.pixCols.toNat → s.pixColumn tc c = s'.pixColumn tc c) ∧ (encodeOn tc s).status.err = false := by
  refine ⟨by decide, by decide, rfl, rfl, rfl, rfl, rfl, rfl, ?_, by decide⟩
  have : ∀ c, c < 16 → ({ idle with pixCols := 16, style := 4, sep := true } : State).pixColumn tc c =
      ({ store { idle with pixCols := 16, style := 4, sep := true } 0x8000 [1, 2, 3] with textLen := 3 } : State).pixColumn tc c := by
    decide
  exact this

theorem witness_RegistersReadBackWhatTheyStore : idle.phase = .idle := rfl

theorem witness_RegionWritesAreLittleEndian : idle.phase = .idle ∧ Memory.wf idle.mem ∧
    (∀ off ∈ [0x0040, 0x006C], off % 4 = 0 ∧ 0x0040 ≤ off ∧ off < 0x0070) ∧
    (∀ off ∈ [0x0100, 0x013C], off % 4 = 0 ∧ 0x0100 ≤ off ∧ off < 0x0140) := by decide

theorem witness_PixWordsHoldTheirRows : idle.phase = .idle ∧ Memory.wf idle.mem ∧ 15 < 256 ∧ 15 < tc.maxCols ∧ 16 < 256 ∧
    tc.maxCols ≤ 16 ∧ 255 < 256 ∧ tc.maxCols ≤ 255 := by decide

theorem witness_ColorWritesItsTriple : idle.phase = .idle := rfl

theorem witness_IgnoredWritesChangeNothing : idle.phase = .idle ∧
    (∀ off ∈ [0x0000, 0x0004, 0x0010, 0x003C, 0x0070, 0x007C, 0x8000, 0xFFFC], off % 4 = 0 ∧ off < 0x10000 ∧
      (off ≤ 0x0004 ∨ off = 0x0010 ∨ off = 0x003C ∨ (0x0070 ≤ off ∧ off < 0x0080) ∨ 0x8000 ≤ off)) ∧
    (∀ off ∈ [0x0014, 0x001C, 0x0080, 0x00FC, 0x0140, 0x03FC, 0x0800, 0x7FFC], off % 4 = 0 ∧ off < 0x10000 ∧
      ((0x0014 ≤ off ∧ off < 0x0020) ∨ (0x0080 ≤ off ∧ off < 0x0100) ∨ (0x0140 ≤ off ∧ off < 0x0400) ∨
        (0x0800 ≤ off ∧ off < 0x8000))) := by decide

theorem witness_BusyWritesAreDropped : (running .render 0).phase ≠ .idle ∧ (initial 0).phase ≠ .idle ∧
    ∀ off ∈ [0x0000, 0x000C, 0xFFFC], off % 4 = 0 ∧ off < 0x10000 := by decide

theorem witness_HostAccessesReachTheBus :
    (let s := hosting (running .render 1) (.write 32 0xFFFC 0);
      s.hostRuns (.write 32 0xFFFC 0) ∧ 0xFFFC % 4 = 0 ∧ 0xFFFC < 0x10000 ∧ s.phase ≠ .idle ∧ s.wait = 0 + 1) ∧
      (let s := hosting idle (.write 32 0x0000 0);
        s.hostRuns (.write 32 0x0000 0) ∧ 0x0000 % 4 = 0 ∧ 0x0000 < 0x10000 ∧ s.phase = .idle) ∧
      (let s := hosting (running .frame 1) (.read 32 0x0060 0);
        s.hostRuns (.read 32 0x0060 0) ∧ 0x0060 % 4 = 0 ∧ 0x0060 < 0x10000 ∧ s.phase ≠ .idle) :=
  ⟨⟨⟨rfl, .inr (by decide)⟩, by decide, by decide, by decide, rfl⟩, ⟨⟨rfl, .inl rfl⟩, by decide, by decide, rfl⟩,
    ⟨rfl, .inr (by decide)⟩, by decide, by decide, by decide⟩

theorem witness_UnspecifiedReadsAreFreeDraws :
    (initial 0).phase = .init ∧ (running .frame 0).phase = .busy .frame ∧ (running .sealBlock 0).phase = .busy .sealBlock ∧
      (running .render 0).phase = .busy .render ∧ (running .encode 0).phase = .busy .encode ∧
      (∀ off ∈ [0x0040, 0x007C, 0x0100, 0x013C, 0x0400, 0x07FC, 0x8000, 0xFFFC], off % 4 = 0 ∧ off < 0x10000 ∧
        ((0x0040 ≤ off ∧ off < 0x0080) ∨ (0x0100 ≤ off ∧ off < 0x0140) ∨ (0x0400 ≤ off ∧ off < 0x0800) ∨ 0x8000 ≤ off)) ∧
      (∀ off ∈ [0x0060, 0x006C], off % 4 = 0 ∧ 0x0060 ≤ off ∧ off < 0x0070) ∧
      (∀ off ∈ [0x0070, 0x007C], off % 4 = 0 ∧ 0x0070 ≤ off ∧ off < 0x0080) ∧
      unspecifiedRead (.busy .frame) (target 0x005C) = false ∧ unspecifiedRead .idle (target 0x0060) = false := by decide

theorem witness_IdleReadsReturnTheStoredBytes : idle.phase = .idle ∧
    (∀ off ∈ [0x0040, 0x007C, 0x0100, 0x013C], off % 4 = 0 ∧
      ((0x0040 ≤ off ∧ off < 0x0080) ∨ (0x0100 ≤ off ∧ off < 0x0140))) ∧
    (0x8000 = 0x8000 + 0 ∧ 0x8000 < 0x10000) ∧ (0xFFFC = 0x8000 + 0x7FFC ∧ 0xFFFC < 0x10000) := by decide

theorem witness_BadAccessesAreRefused :
    ((hosting idle (.write 16 0x0060 0)).hostRuns (.write 16 0x0060 0) ∧ (16 : Nat) ≠ 32) ∧
      ((hosting (initial 1) (.read 32 0x0062 0)).hostRuns (.read 32 0x0062 0) ∧ 0x0062 % 4 ≠ 0) ∧
      ((hosting idle (.read 32 0x10000 0)).hostRuns (.read 32 0x10000 0) ∧ 0x10000 % 4 = 0 ∧ 0x10000 ≤ 0x10000) :=
  ⟨⟨⟨rfl, .inl rfl⟩, by decide⟩, ⟨⟨rfl, .inr (by decide)⟩, by decide⟩, ⟨⟨rfl, .inl rfl⟩, by decide⟩⟩

theorem witness_HostReadsBranchesAndChecks :
    (let s := hosting idle (.read 32 0xFFFC 0);
      s.phase = .idle ∧ Table.Wf s.host.vars ∧ s.hostRuns (.read 32 0xFFFC 0) ∧ 0xFFFC % 4 = 0 ∧ 0xFFFC < 0x10000) ∧
      (let s := (hosting idle (.bnz 0 1 0)).setHostVar 0 1;
        s.hostRuns (.bnz 0 1 0) ∧ s.hostVar 0 &&& 1 ≠ 0#32) ∧
      (let s := hosting (running .frame 1) (.bnz 0 1 0);
        s.hostRuns (.bnz 0 1 0) ∧ s.hostVar 0 &&& 1 = 0#32) ∧
      (let s := hosting idle (.check 0 1 0);
        s.hostRuns (.check 0 1 0) ∧ s.hostVar 0 &&& 1 = 0) ∧
      (let s := hosting idle (.check 0 1 1);
        s.hostRuns (.check 0 1 1) ∧ s.hostVar 0 &&& 1 ≠ 1) :=
  ⟨⟨rfl, by decide, ⟨rfl, .inl rfl⟩, by decide, by decide⟩, ⟨⟨rfl, .inl rfl⟩, by decide⟩,
    ⟨⟨rfl, .inr (by decide)⟩, by decide⟩, ⟨⟨rfl, .inl rfl⟩, by decide⟩, ⟨⟨rfl, .inl rfl⟩, by decide⟩⟩

theorem witness_WaitEndsWithBusyClear :
    let s := (running .sealBlock 2).withHostProgram (waitStmts 0 5)
    Table.Wf s.host.vars ∧ s.host.pc = 0 ∧ s.host.prog[0]? = some (.read 32 statusOffset 5) ∧
      s.host.prog[0 + 1]? = some (.bnz 5 0x00000001#32 0) := ⟨by decide, rfl, rfl, rfl⟩

/-- A program that is one WRBYTES. -/
def wrbytesState (rg : Region) (bs : List Byte) : State := idle.withHostProgram (wrbytesStmts (regionBase rg) bs)

theorem witness_WrbytesStoresItsBytes :
    (∀ rg ∈ [Region.opcodeBuf, .argsBuf, .blockIn], (List.replicate 16 (7 : Byte)).length ≤ regionSize rg) ∧
      (List.replicate 61 (7 : Byte)).length ≤ regionSize .textBuf ∧ 61 < 4 * wordsFor 61 ∧
      (let s := wrbytesState .textBuf (List.replicate 61 7);
        s.phase = .idle ∧ Memory.wf s.mem ∧ s.host.prog = wrbytesStmts (regionBase .textBuf) (List.replicate 61 7) ∧
          s.host.pc = 0) := ⟨by decide, by decide, by decide, rfl, by decide, rfl, rfl⟩

theorem witness_IdAndParamAreConstant : idle.phase = .idle := rfl

theorem witness_InterruptFollowsDoneAndEnable : Instr.encode ≠ .clear ∧ (∃ t, exec .encode idle = .next t) ∧
    (∃ t, exec .clear idle = .next t) ∧ idle.phase = .idle ∧ (∃ t, hostWrite idle cmdOffset 2 = .next t) ∧
    ∃ t, hostWrite idle 0x0008 1 = .next t := ⟨by decide, ⟨_, rfl⟩, ⟨_, rfl⟩, rfl, ⟨_, rfl⟩, _, rfl⟩

theorem witness_ResetAbandonsTheRunningCommand : (hosting (running .encode 1) .pulseRst).hostRuns .pulseRst ∧
    (hosting idle .pulseRst).hostRuns .pulseRst := ⟨⟨rfl, .inr (by decide)⟩, rfl, .inl rfl⟩

theorem witness_InitEndsWithEverythingCleared : (initial 0).phase = .init ∧ (initial 0).wait = 0 ∧
    (after (hostWrite (initial 0) 0x0008 1)).status.busyWr = true := by decide

/-- A state that meets the invariants, and from which a step goes on. -/
theorem initial_memoryInv (p : Config) (n : Nat) : MemoryInv p (initial n) where
  canonical := Memory.wf_nil
  stored    := fun _ _ => rfl
  rows      := fun c _ => by
    have h : (initial n).mem.readWord (pixOffset c) = 0#32 := by show wordOf 0#8 0#8 0#8 0#8 = 0#32; decide
    rw [h]; simp

theorem witness_EveryStepKeepsTheMemoryInvariant :
    MemoryInv Config.device (initial 0) ∧ ∃ t, step (initial 0) = .next t := ⟨initial_memoryInv _ 0, _, rfl⟩

theorem witness_EveryStepKeepsTheStatusInvariant : StatusInv (initial 0) ∧ ∃ t, step (initial 0) = .next t :=
  ⟨{ noError := fun _ => rfl
     error   := fun h => absurd h (by decide)
     running := fun _ => rfl
     lastOp  := fun d i h => absurd (show Phase.init = Phase.busy d from h) (by simp) }, _, rfl⟩

theorem witness_EveryStepKeepsTheRegisterInvariant :
    RegisterInv Config.device (initial 0) ∧ ∃ t, step (initial 0) = .next t :=
  ⟨{ atInit   := fun _ => ⟨⟨rfl, rfl, rfl, rfl, rfl, rfl, rfl, rfl, rfl, rfl, rfl⟩, rfl⟩
     colorLen := Nat.zero_le _ }, _, rfl⟩

theorem witness_EveryStepKeepsTheHostVariables :
    let s := { hosting idle (.read 32 0x0010 1) with host := { (hosting idle (.read 32 0x0010 1)).host with vars := [(1, 7)] } }
    Table.Wf s.host.vars ∧ ∃ t, step s = .next t := ⟨by decide, _, rfl⟩

theorem witness_OnlyClearAndResetClearBusyWrite :
    (let s := hosting { idle with status := { Status.zero with busyWr := true } } (.write 32 cmdOffset 0);
      ∃ t, step s = .next t ∧ s.status.busyWr = true ∧ t.status.busyWr = false) ∧
      (let s := hosting { running .frame 1 with status := { Status.zero with busyWr := true } } .pulseRst;
        ∃ t, step s = .next t ∧ s.status.busyWr = true ∧ t.status.busyWr = false) :=
  ⟨⟨_, rfl, rfl, rfl⟩, _, rfl, rfl, rfl⟩

/-- A step that is none of the three that may change the output regions. -/
theorem witness_ColourBufferChangesOnlyByEncode : let s := hosting idle (.write 32 0x8000 7)
    (∃ t, step s = .next t) ∧ ¬ s.engineCompletes .encode ∧ ¬ (s.phase = .init ∧ s.wait = 0) ∧ ¬ s.hostRuns .pulseRst :=
  ⟨⟨_, rfl⟩, fun h => absurd h.1 (by decide), fun h => absurd h.1 (by decide), fun h => absurd h.1 (by decide)⟩

theorem witness_BlockOutChangesOnlyBySeal : let s := hosting idle (.write 32 0x007C 7)
    (∃ t, step s = .next t) ∧ ¬ s.engineCompletes .sealBlock ∧ ¬ (s.phase = .init ∧ s.wait = 0) ∧ ¬ s.hostRuns .pulseRst ∧
      0x0070 ≤ 0x007F ∧ 0x007F < 0x0080 :=
  ⟨⟨_, rfl⟩, fun h => absurd h.1 (by decide), fun h => absurd h.1 (by decide), fun h => absurd h.1 (by decide), by decide⟩

theorem witness_AcceptedCommandCompletesOnItsOperands :
    let s := hosting (running .frame 1) (.write 32 0x0030 0)
    s.phase = .busy .frame ∧ neverResets s ∧ (∃ t, Sys2Proof.core.run s.wait s = .next t) ∧
      (∃ t, Sys2Proof.core.run (s.wait + 1) s = .next t) ∧
      ∀ stmt ∈ s.host.prog, stmt.wellFormed = true ∧ ∀ x m v, stmt ≠ .check x m v := by
  refine ⟨rfl, by simp [neverResets, hosting, State.withHostProgram], ⟨_, rfl⟩, ⟨_, rfl⟩, fun stmt h => ?_⟩
  simp only [hosting, State.withHostProgram, List.mem_singleton] at h
  subst h
  exact ⟨by decide, fun x m v h => by cases h⟩

theorem witness_InitReachesIdle :
    let s := hosting (initial 1) (.read 32 0x0060 0)
    s.phase = .init ∧ neverResets s ∧ (∃ t, Sys2Proof.core.run (s.wait + 1) s = .next t) ∧ registersAtReset s ∧
      ∀ stmt ∈ s.host.prog, stmt.wellFormed = true ∧ ∀ x m v, stmt ≠ .check x m v := by
  refine ⟨rfl, by simp [neverResets, hosting, State.withHostProgram], ⟨_, rfl⟩,
    ⟨rfl, rfl, rfl, rfl, rfl, rfl, rfl, rfl, rfl, rfl, rfl⟩, fun stmt h => ?_⟩
  simp only [hosting, State.withHostProgram, List.mem_singleton] at h
  subst h
  exact ⟨by decide, fun x m v h => by cases h⟩

end Sys2Proof.Tests
end

section
/-! PROOFS, family 10_state.md: what a step does to the storage, to STATUS and to the registers, and the invariants that follow. -/

namespace Sys2Proof.Machine

/-! ## The storage -/

/-- CLEAR is not what a running command completes as, so its completion is a success or an error. -/
theorem exec_next_of_running {d : Running} {i : Instr} {s t : State} (hd : d.instr? = some i) (h : exec i s = .next t) :
    (∃ e, t = raiseError e s) ∨
      ∃ mem pixCols colorLen, t = complete { s with mem := mem, pixCols := pixCols, colorLen := colorLen } := by
  obtain ⟨u, hu, hcases⟩ := exec_next i s
  obtain rfl : u = t := by simpa [hu] using h
  rcases hcases with ⟨hclear, -⟩ | ⟨-, hrun⟩
  · exact absurd hclear (ne_clear_of_running hd)
  · exact hrun

/-- R77: everything a step can do to the storage: nothing, INIT's end, a running command's completion, or one stored word of a
read-write byte region or of a column of PIX. -/
theorem step_mem {s t : State} (h : step s = .next t) :
    t.mem = s.mem ∨ (s.phase = .init ∧ s.wait = 0 ∧ t.mem = []) ∨
      (∃ d i, s.engineCompletes d ∧ d.instr? = some i ∧ exec i s = .next t) ∨
      (∃ off v, off % 4 = 0 ∧ ((0x0040 ≤ off ∧ off < 0x0070) ∨ (0x0100 ≤ off ∧ off < 0x0140)) ∧
        t.mem = s.mem.writeCells (wordCells off v)) ∨
      (∃ c v, c < Config.device.maxCols ∧
        t.mem = s.mem.writeCells (wordCells (pixOffset c) (v &&& rowMask Config.device))) := by
  rcases step_next h with ⟨hp, hw, rfl⟩ | ⟨-, -, rfl⟩ | hexec | ⟨n, -, hhost⟩
  · exact .inr (.inl ⟨hp, hw, rfl⟩)
  · exact .inl rfl
  · exact .inr (.inr (.inl hexec))
  rcases hhost with ⟨_, _, rfl, -⟩ | ⟨-, rfl⟩ | ⟨off, v, -, h4, -, hwrite⟩
  · exact .inl rfl
  · exact .inl rfl
  rcases hwrite with ⟨-, rfl⟩ | ⟨-, -, -, rfl⟩ | ⟨-, -, -, d, -, rfl⟩ | ⟨-, -, rfl⟩
  · exact .inl rfl
  · exact .inl rfl
  · exact .inl rfl
  rcases memWrite_mem Config.device off v s.hostAdvance with hm | ⟨hr, hm⟩ | ⟨c, hc, -, -, -, hm⟩
  · exact .inl hm
  · exact .inr (.inr (.inr (.inl ⟨off, v, h4, hr, hm⟩)))
  · exact .inr (.inr (.inr (.inr ⟨c, v, hc, hm⟩)))

/-- R45: `x &&& ~~~mask` is 0 for a word within its rows. -/
theorem and_not_rowMask_eq_zero {p : Config} {x : Word} (h : x &&& rowMask p = x) : x &&& ~~~ rowMask p = 0#32 := by
  rw [← h, BitVec.and_assoc, BitVec.and_not_self]; exact BitVec.and_zero

/-- R64: the offsets of a word run. -/
theorem mem_wordsCells_offset {a : Nat} {vs : List Word} {e : Host.Cell} (h : e ∈ wordsCells a vs) :
    a ≤ e.1 ∧ e.1 < a + 4 * vs.length := by
  obtain ⟨i, hi, j, hj, rfl⟩ := mem_wordsCells.1 h
  simp only; omega

/-- R19: the offsets of a byte run. -/
theorem mem_byteCells_offset {a : Nat} {bs : List Byte} {e : Host.Cell} (h : e ∈ byteCells a bs) :
    a ≤ e.1 ∧ e.1 < a + bs.length := by
  obtain ⟨i, hi, rfl⟩ := mem_byteCells.1 h
  simp only; omega

/-- R64: the four offsets of a stored word. -/
theorem mem_wordCells_offset {a : Nat} {v : Word} {e : Host.Cell} (h : e ∈ wordCells a v) : a ≤ e.1 ∧ e.1 < a + 4 :=
  mem_byteCells_offset h

/-- R124: the offsets of ENCODE's stores. -/
theorem mem_encodeCells_offset {p : Config} {s : State} {st : Style} {e : Host.Cell} (h : e ∈ encodeCells p s st) :
    0x8000 ≤ e.1 ∧ e.1 < 0x8000 + 3 * s.width * p.rows := by
  obtain ⟨c, r, hc, hr, hpix⟩ := mem_encodeCells.1 h
  obtain ⟨j, hj, rfl⟩ := mem_pixelCells.1 hpix
  have hlt := pixelIndex_lt hc hr
  have hassoc : 3 * s.width * p.rows = 3 * (s.width * p.rows) := by ring
  simp only; omega

/-! ## The invariant of the memory -/

section MemoryInv
variable {p : Config} {s t : State}

/-- An empty memory meets the invariant. -/
theorem MemoryInv.of_nil (hm : s.mem = []) : MemoryInv p s where
  canonical := by rw [hm]; exact Memory.wf_nil
  stored a _ := by rw [byteAt_eq, hm, Memory.read_nil]
  rows c _ := by
    rw [hm, Memory.readWord]
    simp only [Memory.read_nil]
    exact and_not_rowMask_eq_zero (by simp [wordOf])

/-- The invariant speaks of the memory alone. -/
theorem MemoryInv.congr (h : MemoryInv p s) (hm : t.mem = s.mem) : MemoryInv p t where
  canonical := hm ▸ h.canonical
  stored a ha := (byteAt_congr hm a).trans (h.stored a ha)
  rows c hc := hm ▸ h.rows c hc

/-- Stores within the storage keep the invariant, when each PIX word reads as before or is within its rows. -/
theorem MemoryInv.writeCells (h : MemoryInv p s) {cs : List Host.Cell} (hm : t.mem = s.mem.writeCells cs)
    (hstored : ∀ e ∈ cs, storedOffset p e.1)
    (hrows : ∀ c, c < p.maxCols → t.mem.readWord (pixOffset c) = s.mem.readWord (pixOffset c) ∨
      t.mem.readWord (pixOffset c) &&& rowMask p = t.mem.readWord (pixOffset c)) : MemoryInv p t where
  canonical := hm ▸ Memory.writeCells_wf h.canonical cs
  stored a ha := by
    have hout : ∀ e ∈ cs, e.1 ≠ a := fun e he hea => ha (hea ▸ hstored e he)
    rw [byteAt_eq, hm, Memory.read_writeCells_other _ _ hout]
    exact h.stored a ha
  rows c hc := by
    rcases hrows c hc with hold | hmask
    · rw [hold]; exact h.rows c hc
    · exact and_not_rowMask_eq_zero hmask

/-- Stores within the storage but outside PIX keep the invariant. -/
theorem MemoryInv.writeCells_outside_pix (h : MemoryInv p s) {cs : List Host.Cell} (hm : t.mem = s.mem.writeCells cs)
    (hcs : ∀ e ∈ cs, (0x0040 ≤ e.1 ∧ e.1 < 0x0080) ∨ (0x0100 ≤ e.1 ∧ e.1 < 0x0140) ∨
      (0x8000 ≤ e.1 ∧ e.1 < 0x8000 + colorCapacity p)) : MemoryInv p t := by
  refine h.writeCells hm (fun e he => ?_) fun c hc => .inl ?_
  · have hrange := hcs e he
    unfold storedOffset; omega
  · have hmax := maxCols_le p
    rw [hm]
    refine readWord_congr fun b hb hb' => Memory.read_writeCells_other _ _ fun e he hea => ?_
    have hrange := hcs e he
    simp only [pixOffset, regionBase] at hb hb'
    omega

/-- R113: columns within their rows, stored from column 0 of PIX on, keep the invariant. -/
theorem MemoryInv.writeCells_columns (h : MemoryInv p s) {ws : List Word} (hlen : ws.length ≤ p.maxCols)
    (hmask : ∀ x ∈ ws, x &&& rowMask p = x) (hm : t.mem = s.mem.writeCells (wordsCells 0x0400 ws)) : MemoryInv p t := by
  refine h.writeCells hm (fun e he => ?_) fun c _ => ?_
  · have hoff := mem_wordsCells_offset he
    unfold storedOffset; omega
  · rw [hm]
    by_cases hc : c < ws.length
    · have hread : (s.mem.writeCells (wordsCells 0x0400 ws)).readWord (pixOffset c) = ws[c] :=
        readWord_writeCells_wordsCells h.canonical 0x0400 ws hc
      rw [hread]
      exact .inr (hmask _ (List.getElem_mem hc))
    · refine .inl (readWord_congr fun b hb _ => read_writeCells_wordsCells_other _ _ _ (.inr ?_))
      simp only [pixOffset, regionBase] at hb
      omega

/-- R45, R61: one column word within its rows keeps the invariant. -/
theorem MemoryInv.writeCells_column (h : MemoryInv p s) {c : Nat} {v : Word} (hc : c < p.maxCols)
    (hm : t.mem = s.mem.writeCells (wordCells (pixOffset c) (v &&& rowMask p))) : MemoryInv p t := by
  refine h.writeCells hm (fun e he => ?_) fun c' _ => ?_
  · have hoff := mem_wordCells_offset he
    simp only [pixOffset, regionBase] at hoff
    unfold storedOffset; omega
  · rw [hm]
    by_cases hcc : c' = c
    · rw [hcc, readWord_writeCells_wordCells h.canonical, BitVec.and_assoc, BitVec.and_self]
      exact .inr rfl
    · refine .inl (readWord_writeCells_wordCells_other _ _ _ ?_)
      simp only [pixOffset, regionBase]; omega

end MemoryInv

/-- R77, R79: a running command's completion keeps the invariant of the memory. -/
theorem exec_keeps_memoryInv {i : Instr} {s t : State} (hi : i ≠ .clear) (h : exec i s = .next t)
    (hs : MemoryInv Config.device s) : MemoryInv Config.device t := by
  rcases exec_mem hi h with ⟨hm, -⟩ | ⟨-, -, bs, hlen, hm⟩ | ⟨-, -, bs, hlen, hm⟩ | ⟨-, -, ws, hlen, hmask, hm⟩ |
    ⟨-, hw, -, st, hm⟩
  · exact hs.congr hm
  · refine hs.writeCells_outside_pix hm fun e he => ?_
    have hoff := mem_byteCells_offset he
    omega
  · refine hs.writeCells_outside_pix hm fun e he => ?_
    have hoff := mem_byteCells_offset he
    omega
  · exact hs.writeCells_columns hlen hmask hm
  · refine hs.writeCells_outside_pix hm fun e he => ?_
    have hoff := mem_encodeCells_offset he
    have hcap := capacity_mono hw
    omega

/-- Settles O42: by the step's cases on the storage. -/
theorem everyStepKeepsTheMemoryInvariant : Obligations.EveryStepKeepsTheMemoryInvariant := by
  intro s t hs h
  rcases step_mem h with hm | ⟨-, -, hm⟩ | ⟨d, i, -, hd, hexec⟩ | ⟨off, v, h4, hr, hm⟩ | ⟨c, v, hc, hm⟩
  · exact hs.congr hm
  · exact .of_nil hm
  · exact exec_keeps_memoryInv (ne_clear_of_running hd) hexec hs
  · refine hs.writeCells_outside_pix hm fun e he => ?_
    have hoff := mem_wordCells_offset he
    omega
  · exact hs.writeCells_column hc hm

/-! ## The invariant of STATUS -/

section StatusInv
variable {s t : State}

/-- The invariant speaks of STATUS and the phase, and not of BUSYWR. -/
theorem StatusInv.congr (h : StatusInv s) {b : Bool} (hstatus : t.status = { s.status with busyWr := b })
    (hphase : t.phase = s.phase) : StatusInv t := by
  obtain ⟨hnoError, herror, hrunning, hlastOp⟩ := h
  refine ⟨?_, ?_, ?_, ?_⟩ <;> rw [hstatus]
  · exact hnoError
  · exact herror
  · rw [hphase]; exact hrunning
  · rw [hphase]; exact hlastOp

/-- A STATUS with no DONE and no error is consistent in every phase in which no command runs. -/
theorem StatusInv.of_not_busy (hdone : s.status.done = false) (herr : s.status.err = false) (hcode : s.status.errCode = 0#8)
    (hphase : ∀ d, s.phase ≠ .busy d) : StatusInv s where
  noError _ := hcode
  error h := absurd (herr.symm.trans h) (by simp)
  running _ := hdone
  lastOp d _ h := absurd h (hphase d)

/-- R97: a success leaves STATUS consistent. -/
theorem statusInv_complete (s : State) : StatusInv (complete s) where
  noError _ := rfl
  error h := absurd h (by simp)
  running h := absurd rfl h
  lastOp _ _ h := absurd h (by simp)

/-- R98: an error leaves STATUS consistent. -/
theorem statusInv_raiseError (e : ErrorCode) (s : State) : StatusInv (raiseError e s) where
  noError h := absurd h (by simp)
  error _ := ⟨rfl, e, rfl⟩
  running h := absurd rfl h
  lastOp _ _ h := absurd h (by simp)

/-- R96: acceptance leaves STATUS consistent: LAST_OP is the number of the command that now runs. -/
theorem statusInv_accept {v : Word} {d : Running} (hd : d.instr? = (decode v).instr?) (s : State) :
    StatusInv (accept v d s) where
  noError _ := rfl
  error h := absurd h (by simp)
  running _ := rfl
  lastOp d' i hp hi := by
    obtain rfl : d = d' := by simpa using hp
    refine opField_of_legal ?_
    rw [hi] at hd
    cases hdec : decode v with
    | legal j => rw [hdec] at hd; simpa [Decoded.instr?] using hd.symm
    | illegal why => rw [hdec] at hd; simp [Decoded.instr?] at hd

end StatusInv

/-- Settles O43: by the cases of a step. -/
theorem everyStepKeepsTheStatusInvariant : Obligations.EveryStepKeepsTheStatusInvariant := by
  intro s t hs h
  rcases step_next h with ⟨-, -, rfl⟩ | ⟨-, -, rfl⟩ | ⟨d, i, -, hd, hexec⟩ | ⟨n, -, hhost⟩
  · exact .of_not_busy rfl rfl rfl (by simp)
  · exact statusInv_raiseError _ _
  · rcases exec_next_of_running hd hexec with ⟨e, rfl⟩ | ⟨_, _, _, rfl⟩
    · exact statusInv_raiseError _ _
    · exact statusInv_complete _
  rcases hhost with ⟨_, _, rfl, -⟩ | ⟨-, rfl⟩ | ⟨off, v, -, -, -, hwrite⟩
  · exact hs.congr rfl rfl
  · exact .of_not_busy rfl rfl rfl (by simp)
  rcases hwrite with ⟨-, rfl⟩ | ⟨hidle, -, -, rfl⟩ | ⟨-, -, -, d, hd, rfl⟩ | ⟨-, -, rfl⟩
  · exact hs.congr rfl rfl
  · exact .of_not_busy rfl rfl rfl (by simp [hidle])
  · exact statusInv_accept hd _
  · obtain ⟨hstatus, hphase, -⟩ := memWrite_keeps Config.device (target off) v s.hostAdvance
    exact hs.congr hstatus hphase

/-! ## The invariant of the registers -/

/-- R55: every operand and result register is 0 at reset. -/
theorem registersAtReset_reset : registersAtReset State.reset := ⟨rfl, rfl, rfl, rfl, rfl, rfl, rfl, rfl, rfl, rfl, rfl⟩

section RegisterInv
variable {p : Config} {s t : State}

/-- Outside INIT the invariant is the bound of COLOR_LEN alone. -/
theorem RegisterInv.of_not_init (hphase : t.phase ≠ .init) (hlen : t.colorLen.toNat ≤ colorCapacity p) : RegisterInv p t where
  atInit h := absurd h hphase
  colorLen := hlen

/-- R55, R180: a reset establishes the invariant. -/
theorem registerInv_reset (s : State) : RegisterInv p (assertReset s).hostAdvance where
  atInit _ := ⟨registersAtReset_reset, rfl⟩
  colorLen := Nat.zero_le _

end RegisterInv

/-- R39, R125: a running command's completion keeps COLOR_LEN within the stored part of COLOR_BUF. -/
theorem exec_keeps_colorLen_le {i : Instr} {s t : State} (hi : i ≠ .clear) (h : exec i s = .next t)
    (hs : s.colorLen.toNat ≤ colorCapacity Config.device) : t.colorLen.toNat ≤ colorCapacity Config.device := by
  rcases exec_mem hi h with ⟨-, hlen⟩ | ⟨-, hlen, -⟩ | ⟨-, hlen, -⟩ | ⟨-, hlen, -⟩ | ⟨-, hw, hlen, -⟩ <;> rw [hlen]
  · exact hs
  · exact hs
  · exact hs
  · exact hs
  · exact capacity_mono hw

/-- R97, R98: every completion ends IDLE. -/
theorem exec_phase_of_running {d : Running} {i : Instr} {s t : State} (hd : d.instr? = some i) (h : exec i s = .next t) :
    t.phase = .idle := by
  rcases exec_next_of_running hd h with ⟨e, rfl⟩ | ⟨_, _, _, rfl⟩ <;> rfl

/-- Settles O44: a write reaches a register only while IDLE, and reset gives every register its reset value. -/
theorem everyStepKeepsTheRegisterInvariant : Obligations.EveryStepKeepsTheRegisterInvariant := by
  intro s t hs h
  rcases step_next h with ⟨-, -, rfl⟩ | ⟨-, -, rfl⟩ | ⟨d, i, -, hd, hexec⟩ | ⟨n, -, hhost⟩
  · exact .of_not_init (by simp) hs.colorLen
  · exact .of_not_init (by simp) hs.colorLen
  · exact .of_not_init (by simp [exec_phase_of_running hd hexec])
      (exec_keeps_colorLen_le (ne_clear_of_running hd) hexec hs.colorLen)
  rcases hhost with ⟨_, _, rfl, -⟩ | ⟨-, rfl⟩ | ⟨off, v, -, -, -, hwrite⟩
  · exact ⟨hs.atInit, hs.colorLen⟩
  · exact registerInv_reset _
  rcases hwrite with ⟨-, rfl⟩ | ⟨hidle, -, -, rfl⟩ | ⟨-, -, -, d, -, rfl⟩ | ⟨hidle, -, rfl⟩
  · exact ⟨hs.atInit, hs.colorLen⟩
  · exact .of_not_init (by simp [hidle]) hs.colorLen
  · exact .of_not_init (by simp) hs.colorLen
  · obtain ⟨-, hphase, -, -, -, hlen⟩ := memWrite_keeps Config.device (target off) v s.hostAdvance
    exact .of_not_init (by simp [hphase, hidle]) (by simpa [hlen] using hs.colorLen)

/-! ## BUSYWR and BLOCK_OUT -/

/-- R97, R98: a completion keeps BUSYWR. -/
theorem exec_busyWr_of_running {d : Running} {i : Instr} {s t : State} (hd : d.instr? = some i) (h : exec i s = .next t) :
    t.status.busyWr = s.status.busyWr := by
  rcases exec_next_of_running hd h with ⟨e, rfl⟩ | ⟨_, _, _, rfl⟩ <;> rfl

/-- R31, R183: what a step does to BUSYWR: it keeps it, sets it, or clears it by reset or by CLEAR issued while IDLE. -/
theorem step_busyWr {s t : State} (h : step s = .next t) :
    t.status.busyWr = s.status.busyWr ∨ t.status.busyWr = true ∨ s.hostRuns .pulseRst ∨
      (s.phase = .idle ∧ s.hostRuns (.write 32 cmdOffset (encode .clear))) := by
  rcases step_next h with ⟨-, -, rfl⟩ | ⟨-, -, rfl⟩ | ⟨d, i, -, hd, hexec⟩ | ⟨n, -, hhost⟩
  · exact .inl rfl
  · exact .inl rfl
  · exact .inl (exec_busyWr_of_running hd hexec)
  rcases hhost with ⟨_, _, rfl, -⟩ | ⟨hpulse, -⟩ | ⟨off, v, hruns, -, -, hwrite⟩
  · exact .inl rfl
  · exact .inr (.inr (.inl hpulse))
  rcases hwrite with ⟨-, rfl⟩ | ⟨hidle, rfl, hclear, -⟩ | ⟨-, -, -, d, -, rfl⟩ | ⟨-, -, rfl⟩
  · exact .inr (.inl rfl)
  · exact .inr (.inr (.inr ⟨hidle, decode_eq_legal.1 hclear ▸ hruns⟩))
  · exact .inl rfl
  · obtain ⟨hstatus, -⟩ := memWrite_keeps Config.device (target off) v s.hostAdvance
    exact .inl (by rw [hstatus, hostAdvance_status])

/-- Settles O46: from what a step does to BUSYWR. -/
theorem onlyClearAndResetClearBusyWrite : Obligations.OnlyClearAndResetClearBusyWrite := by
  intro s t h hset hclear
  rcases step_busyWr h with hkeep | hsets | hcleared
  · exact absurd (hkeep.symm.trans hclear) (by simp [hset])
  · exact absurd (hsets.symm.trans hclear) (by simp)
  · exact hcleared

/-- R43, R148: no completion but SEAL's writes BLOCK_OUT. -/
theorem exec_keeps_blockOut {i : Instr} {s t : State} (hi : i ≠ .clear) (hseal : i ≠ .sealBlock) (h : exec i s = .next t)
    {a : Nat} (ha : 0x0070 ≤ a) (ha' : a < 0x0080) : t.byteAt a = s.byteAt a := by
  rcases exec_mem hi h with ⟨hm, -⟩ | ⟨-, -, bs, hlen, hm⟩ | ⟨hs, -⟩ | ⟨-, -, ws, -, -, hm⟩ | ⟨-, -, -, st, hm⟩
  · exact byteAt_congr hm a
  · rw [byteAt_eq, hm]; exact read_writeCells_byteCells_other _ _ _ (.inr (by omega))
  · exact absurd hs hseal
  · rw [byteAt_eq, hm]; exact read_writeCells_wordsCells_other _ _ _ (.inl (by omega))
  · rw [byteAt_eq, hm]; exact read_encodeCells_other _ _ (.inl (by omega))

/-- Settles O48: by the step's cases on the storage, BLOCK_OUT being read-only to the host. -/
theorem blockOutChangesOnlyBySeal : Obligations.BlockOutChangesOnlyBySeal := by
  intro s t h hseal hinit _ a ha ha'
  rcases step_mem h with hm | ⟨hp, hw, -⟩ | ⟨d, i, hd, hi, hexec⟩ | ⟨off, v, h4, hr, hm⟩ | ⟨c, v, hc, hm⟩
  · exact byteAt_congr hm a
  · exact absurd ⟨hp, hw⟩ hinit
  · refine exec_keeps_blockOut (ne_clear_of_running hi) ?_ hexec ha ha'
    rintro rfl
    obtain rfl : d = .sealBlock := by simpa [runningOf] using (runningOf_eq_some.2 hi).symm
    exact hseal hd
  · rw [byteAt_eq, hm]; exact read_writeCells_wordCells_other _ _ _ (by omega)
  · rw [byteAt_eq, hm]; exact read_writeCells_wordCells_other _ _ _ (by simp only [pixOffset, regionBase]; omega)

end Sys2Proof.Machine
end

section
/-! PROOFS, family 10_state.md: the registers as the host reads and writes them, and the states at reset and at the end of INIT. -/

namespace Sys2Proof.Machine

/-! ## Fields of a register -/

/-- Bit `i` of a field placed at bit `lo`. -/
theorem getLsbD_fieldAt {w : Nat} (lo : Nat) (v : BitVec w) (i : Nat) :
    (fieldAt lo v).getLsbD i = (decide (i < 32) && decide (lo ≤ i) && v.getLsbD (i - lo)) := by
  by_cases hi : i < 32
  · rw [BitVec.getLsbD_eq_getElem hi, getElem_fieldAt lo v i hi]; simp [hi]
  · simp [BitVec.getLsbD_of_ge _ _ (Nat.not_lt.1 hi), hi]

/-- Bit `i` of a one-bit field placed at bit `lo`. -/
theorem getLsbD_flagAt (lo : Nat) (b : Bool) (i : Nat) (h : lo < 32) : (flagAt lo b).getLsbD i = (decide (i = lo) && b) := by
  rw [flagAt, getLsbD_fieldAt, BitVec.getLsbD_ofBool]
  by_cases hi : i = lo
  · subst hi; simp [h]
  · by_cases hlo : lo ≤ i
    · simp [hi, show i - lo ≠ 0 by omega]
    · simp [hi, hlo]

/-- A field is read at its own place. -/
theorem extractLsb'_fieldAt_same {w : Nat} {lo : Nat} (v : BitVec w) (h : lo + w ≤ 32) :
    (fieldAt lo v).extractLsb' lo w = v := by
  refine BitVec.eq_of_getLsbD_eq fun i hi => ?_
  rw [BitVec.getLsbD_extractLsb', getLsbD_fieldAt]
  simp [hi, show lo + i < 32 by omega]

/-- A field is 0 at every place that shares no bit with its own. -/
theorem extractLsb'_fieldAt_disjoint {w : Nat} {lo : Nat} (v : BitVec w) {lo' n : Nat} (h : lo' + n ≤ lo ∨ lo + w ≤ lo') :
    (fieldAt lo v).extractLsb' lo' n = 0#n := by
  refine BitVec.eq_of_getLsbD_eq fun i hi => ?_
  rw [BitVec.getLsbD_extractLsb', getLsbD_fieldAt, BitVec.getLsbD_zero]
  rcases h with h | h
  · simp [show ¬ lo ≤ lo' + i by omega]
  · simp [BitVec.getLsbD_of_ge v (lo' + i - lo) (by omega)]

/-- R65: a field taken from a written word and placed back is the word under the field's mask. -/
theorem fieldAt_extractLsb' (lo w : Nat) (v : Word) :
    fieldAt lo (v.extractLsb' lo w) = v &&& fieldAt lo (BitVec.allOnes w) := by
  refine BitVec.eq_of_getLsbD_eq fun i hi => ?_
  rw [BitVec.getLsbD_and, getLsbD_fieldAt, getLsbD_fieldAt, BitVec.getLsbD_extractLsb', BitVec.getLsbD_allOnes]
  by_cases hlo : lo ≤ i
  · simp [hlo, Nat.add_sub_cancel' hlo, Bool.and_assoc, Bool.and_comm (v.getLsbD i)]
  · simp [hlo]

/-- R65: the same for a one-bit field. -/
theorem flagAt_getLsbD (lo : Nat) (v : Word) : flagAt lo (v.getLsbD lo) = v &&& fieldAt lo (BitVec.allOnes 1) := by
  rw [← fieldAt_extractLsb', flagAt]
  congr 1
  refine BitVec.eq_of_getLsbD_eq fun i hi => ?_
  obtain rfl : i = 0 := by omega
  simp

/-! ## Each register as a word under its mask -/

/-- R34. -/
theorem toWord_ofWord (v : Word) : (Colour.ofWord v).toWord = v &&& 0x00FFFFFF#32 := by
  simp only [Colour.ofWord, Colour.toWord, fieldAt_extractLsb', ← BitVec.and_or_distrib_left]
  rfl

/-- R25. -/
theorem ctrlWord_of_write (v : Word) (s : State) : State.ctrlWord { s with irqEn := v.getLsbD 0 } = v &&& 0x00000001#32 := by
  simp only [State.ctrlWord, flagAt_getLsbD]
  rfl

/-- R35. -/
theorem schemeWord_of_write (v : Word) (s : State) :
    State.schemeWord { s with style := v.extractLsb' 0 3, sep := v.getLsbD 8 } = v &&& 0x00000107#32 := by
  simp only [State.schemeWord, fieldAt_extractLsb', flagAt_getLsbD, ← BitVec.and_or_distrib_left]
  rfl

/-- R36. -/
theorem frameCfgWord_of_write (v : Word) (s : State) :
    State.frameCfgWord { s with opLen := v.extractLsb' 0 5, argLen := v.extractLsb' 8 5 } = v &&& 0x00001F1F#32 := by
  simp only [State.frameCfgWord, fieldAt_extractLsb', ← BitVec.and_or_distrib_left]
  rfl

/-- R60, R61: a write while IDLE to an offset other than CMD, and the read after it. -/
theorem write_then_read {s : State} {off : Nat} {v x : Word} (hp : s.phase = .idle) (hcmd : off ≠ cmdOffset) {t : State}
    (ht : memWrite Config.device (target off) v s = t) (hx : memRead Config.device t off = x) :
    ∃ u, hostWrite s off v = .next u ∧ u = t ∧ hostRead u off = (x, u) := by
  refine ⟨t, by rw [hostWrite_idle hp hcmd, ht], rfl, ?_⟩
  have hphase : t.phase = .idle := by
    obtain ⟨-, hkeep, -⟩ := memWrite_keeps Config.device (target off) v s
    rw [← ht, hkeep, hp]
  rw [hostRead_idle hphase, hx]

/-- Settles O22: register by register, the value read being the word under the register's mask. -/
theorem registersReadBackWhatTheyStore : Obligations.RegistersReadBackWhatTheyStore := by
  intro s v hp
  refine ⟨?ctrl, ?fg, ?bg, ?deco, ?scheme, ?frameCfg, ?textLen, ?pixCols⟩
  case ctrl => exact write_then_read hp (by decide) rfl (ctrlWord_of_write v s)
  case fg => exact write_then_read hp (by decide) rfl (toWord_ofWord v)
  case bg => exact write_then_read hp (by decide) rfl (toWord_ofWord v)
  case deco => exact write_then_read hp (by decide) rfl (toWord_ofWord v)
  case scheme => exact write_then_read hp (by decide) rfl (schemeWord_of_write v s)
  case frameCfg => exact write_then_read hp (by decide) rfl (frameCfgWord_of_write v s)
  case textLen => exact write_then_read hp (by decide) rfl (fieldAt_extractLsb' 0 8 v)
  case pixCols => exact write_then_read hp (by decide) rfl (fieldAt_extractLsb' 0 9 v)

/-! ## PIX -/

/-- R45: the offset of column word `c` names that word. -/
theorem target_pixOffset {c : Nat} (hc : c < 256) : target (0x0400 + 4 * c) = .pix c := by
  rw [target_pix (by omega) (by omega)]
  congr 1; omega

/-- R45: a write of a column word below MAX_COLS. -/
theorem memWrite_pix_stored {p : Config} {c : Nat} (hc : c < p.maxCols) (v : Word) (s : State) :
    memWrite p (.pix c) v s = { s with mem := s.mem.writeCells (wordCells (pixOffset c) (v &&& rowMask p)) } := by
  rw [memWrite, if_pos hc]

/-- R45: a write of a column word at or beyond MAX_COLS. -/
theorem memWrite_pix_ignored {p : Config} {c : Nat} (hc : p.maxCols ≤ c) (v : Word) (s : State) :
    memWrite p (.pix c) v s = s := by
  rw [memWrite, if_neg (Nat.not_lt.2 hc)]

/-- R45: a stored column word reads back under the row mask. -/
theorem pixColumn_memWrite_pix {p : Config} {c : Nat} {s : State} (hm : Memory.wf s.mem) (hc : c < p.maxCols) (v : Word) :
    (memWrite p (.pix c) v s).pixColumn p c = v &&& rowMask p := by
  rw [memWrite_pix_stored hc, State.pixColumn, if_pos hc]
  simp only
  rw [readWord_writeCells_wordCells hm, BitVec.and_assoc, BitVec.and_self]

/-- Settles O24: by whether the column word lies below MAX_COLS. -/
theorem pixWordsHoldTheirRows : Obligations.PixWordsHoldTheirRows := by
  refine ⟨fun s c v hp _ => ⟨hostWrite_idle hp (by simp only [cmdOffset]; omega) v, hostRead_idle hp _⟩, ?_⟩
  intro p s t c v hm hc256 ht
  rw [target_pixOffset hc256] at ht
  have hread : memRead p t (0x0400 + 4 * c) = t.pixColumn p c := by rw [memRead, target_pixOffset hc256]
  rw [hread]
  subst ht
  by_cases hc : c < p.maxCols
  · refine ⟨?_, fun a ha => ?_, fun _ r _ => ?_, fun hc' => absurd hc (Nat.not_lt.2 hc')⟩
    · rw [memWrite_pix_stored hc]
    · rw [memWrite_pix_stored hc, byteAt_eq, byteAt_eq]
      refine read_writeCells_wordCells_other _ _ _ ?_
      simp only [pixOffset, regionBase]; omega
    · rw [pixColumn_memWrite_pix hm hc, BitVec.getLsbD_and, getLsbD_rowMask, Bool.and_comm]
  · rw [memWrite_pix_ignored (Nat.not_lt.1 hc)]
    refine ⟨rfl, fun a _ => rfl, fun hc' => absurd hc' hc, fun _ => ⟨rfl, ?_⟩⟩
    rw [State.pixColumn, if_neg hc]

/-! ## STATUS, ID and PARAM -/

/-- R27: bit `i` of STATUS, over its fields. -/
theorem getLsbD_statusWord (s : State) (i : Nat) : s.statusWord.getLsbD i =
    (decide (i = 0) && s.busy || decide (i = 1) && s.status.done || decide (i = 2) && s.status.err ||
      decide (i = 3) && s.status.busyWr || decide (i = 4) && s.initBit ||
      (fieldAt 8 s.status.errCode).getLsbD i || (fieldAt 16 s.status.lastOp).getLsbD i) := by
  simp only [State.statusWord, BitVec.getLsbD_or]
  rw [getLsbD_flagAt _ _ _ (by decide), getLsbD_flagAt _ _ _ (by decide), getLsbD_flagAt _ _ _ (by decide),
    getLsbD_flagAt _ _ _ (by decide), getLsbD_flagAt _ _ _ (by decide)]

/-- R27: bits 4 to 0 of STATUS are its flags. -/
theorem statusWord_flags (s : State) : s.statusWord.getLsbD 0 = s.busy ∧ s.statusWord.getLsbD 1 = s.status.done ∧
    s.statusWord.getLsbD 2 = s.status.err ∧ s.statusWord.getLsbD 3 = s.status.busyWr ∧ s.statusWord.getLsbD 4 = s.initBit := by
  refine ⟨?_, ?_, ?_, ?_, ?_⟩ <;> rw [getLsbD_statusWord, getLsbD_fieldAt, getLsbD_fieldAt] <;> simp

/-- R27: the fields of STATUS above its flags, and its reserved bits. -/
theorem statusWord_fields (s : State) : s.statusWord.extractLsb' 5 3 = 0#3 ∧
    s.statusWord.extractLsb' 8 8 = s.status.errCode ∧ s.statusWord.extractLsb' 16 8 = s.status.lastOp ∧
    s.statusWord.extractLsb' 24 8 = 0#8 := by
  simp only [State.statusWord, flagAt, BitVec.extractLsb'_or]
  refine ⟨?_, ?_, ?_, ?_⟩
  · simp (disch := omega) only [extractLsb'_fieldAt_disjoint, BitVec.zero_or]
  · simp (disch := omega) only [extractLsb'_fieldAt_disjoint, extractLsb'_fieldAt_same, BitVec.zero_or, BitVec.or_zero]
  · simp (disch := omega) only [extractLsb'_fieldAt_disjoint, extractLsb'_fieldAt_same, BitVec.zero_or]
  · simp (disch := omega) only [extractLsb'_fieldAt_disjoint, BitVec.zero_or]

/-- Settles O35: STATUS by its fields, and its read by R69's exceptions not naming it. -/
theorem statusRegisterFields : Obligations.StatusRegisterFields := by
  intro s
  obtain ⟨hbusy, hdone, herr, hbusyWr, hinit⟩ := statusWord_flags s
  obtain ⟨hlow, hcode, hop, hhigh⟩ := statusWord_fields s
  refine ⟨?_, hdone, herr, hbusyWr, ?_, hlow, hcode, hop, hhigh, hostRead_fixed (by decide) (by decide) (by decide)⟩
  · rw [hbusy, State.busy, decide_eq_true_eq]
  · rw [hinit, State.initBit, decide_eq_true_eq]

/-- R24: the fields of PARAM and its reserved bits, as placed. -/
theorem paramWord_fields (p : Config) : (paramWord p).extractLsb' 0 6 = BitVec.ofNat 6 p.rows ∧
    (paramWord p).extractLsb' 6 2 = 0#2 ∧ (paramWord p).extractLsb' 8 6 = BitVec.ofNat 6 p.gw ∧
    (paramWord p).extractLsb' 14 2 = 0#2 ∧ (paramWord p).extractLsb' 16 9 = BitVec.ofNat 9 p.maxCols ∧
    (paramWord p).extractLsb' 25 7 = 0#7 := by
  simp only [paramWord, BitVec.extractLsb'_or]
  refine ⟨?_, ?_, ?_, ?_, ?_, ?_⟩ <;>
    simp (disch := omega) only [extractLsb'_fieldAt_disjoint, extractLsb'_fieldAt_same, BitVec.zero_or, BitVec.or_zero]

/-- Settles O36: no command outputs ID or PARAM, no write reaches them, and each parameter fits its field. -/
theorem idAndParamAreConstant : Obligations.IdAndParamAreConstant := by
  refine ⟨fun s => ⟨?_, ?_⟩, fun s v hp => ⟨?_, ?_⟩, fun p => ?_⟩
  · exact hostRead_fixed (by decide) (by decide) (by decide)
  · exact hostRead_fixed (by decide) (by decide) (by decide)
  · exact hostWrite_idle hp (by decide) v
  · exact hostWrite_idle hp (by decide) v
  · have hrows := rows_le p
    have hgw := gw_le p
    have hcols := maxCols_le p
    obtain ⟨h0, h6, h8, h14, h16, h25⟩ := paramWord_fields p
    refine ⟨?_, h6, ?_, h14, ?_, h25⟩
    · rw [h0, BitVec.toNat_ofNat, Nat.mod_eq_of_lt (by omega)]
    · rw [h8, BitVec.toNat_ofNat, Nat.mod_eq_of_lt (by omega)]
    · rw [h16, BitVec.toNat_ofNat, Nat.mod_eq_of_lt (by omega)]

/-! ## Reset and the end of INIT -/

/-- R55, R181: INIT with a silent host, `n` turns of the host before it ends. -/
def silentInit (n : Nat) : State := { State.reset with wait := n }

/-- The state at reset is INIT with the latency drawn for it. -/
theorem reset_eq_silentInit : State.reset = silentInit (Config.latency 0) := rfl

/-- The silent host's turn uses up one step of the latency and does nothing else. -/
theorem step_silentInit_succ (n : Nat) : step (silentInit (n + 1)) = .next (silentInit n) := rfl

/-- R181: the engine's turn ends INIT. -/
theorem step_silentInit_zero : step (silentInit 0) = .next (endInit (silentInit 0)) := rfl

/-- R181: a silent host's INIT of latency `n` ends after `n + 1` steps. -/
theorem run_silentInit (n : Nat) : Sys2Proof.core.run (n + 1) (silentInit n) = .next (endInit (silentInit 0)) := by
  induction n with
  | zero => exact run_next step_silentInit_zero
  | succ n ih => exact (run_next (step_silentInit_succ n)).trans ih

/-- Settles O38: by the run of a silent host through INIT. -/
theorem resetLeavesRegistersZero : Obligations.ResetLeavesRegistersZero := by
  refine ⟨registersAtReset_reset, by decide, rfl, rfl, endInit (silentInit 0), ?_, rfl, registersAtReset_reset, by decide, rfl,
    fun a => rfl⟩
  rw [reset_eq_silentInit]
  exact run_silentInit _

/-- Settles O41: nothing is listed at reset, STATUS is 0, and every register has its reset value. -/
theorem invariantHoldsAtReset : Obligations.InvariantHoldsAtReset where
  memory := .of_nil rfl
  status := .of_not_busy rfl rfl rfl (by simp [State.reset])
  registers := ⟨fun _ => ⟨registersAtReset_reset, rfl⟩, Nat.zero_le _⟩
  hostVars := Table.wf_nil

end Sys2Proof.Machine
end

section
/-! PROOFS, family 20_memory.md: the accesses the machine refuses, the writes it drops or ignores, what a read of the window
returns, and COLOR_BUF's one writer. -/

namespace Sys2Proof.Machine

/-! ## Refused accesses -/

/-- R62: the check of the width comes first. -/
theorem accessError_width {width : Nat} (h : width ≠ 32) (off : Nat) :
    accessError width off = some (.accessWidth width off) := if_pos h

/-- R63: the check of the alignment comes second. -/
theorem accessError_misaligned {off : Nat} (h : off % 4 ≠ 0) : accessError 32 off = some (.misaligned off) := by
  rw [accessError, if_neg (by decide), if_pos h]

/-- R54: the check of the window comes last. -/
theorem accessError_outside {off : Nat} (h4 : off % 4 = 0) (h : 0x10000 ≤ off) :
    accessError 32 off = some (.outsideWindow off) := by
  rw [accessError, if_neg (by decide), if_neg (by simpa using h4), if_pos h]

/-- A step in which the host makes an access that is no SMFE access is refused, whatever the phase. -/
theorem step_refused_of_accessError {s : State} {width off x : Nat} {v : Word} {r : Refusal}
    (h : s.hostRuns (.write width off v) ∨ s.hostRuns (.read width off x)) (hr : accessError width off = some r) :
    step s = .refused r := by
  rcases h with h | h
  · obtain ⟨n, -, hstep⟩ := hostRuns_step h
    simp only [hstep, runStmt, hr]
  · obtain ⟨n, -, hstep⟩ := hostRuns_step h
    simp only [hstep, runStmt, hr]

/-- Settles O31: by the three checks of an access, in their order. -/
theorem badAccessesAreRefused : Obligations.BadAccessesAreRefused := by
  intro s width off x v h
  refine ⟨fun hw => step_refused_of_accessError h (accessError_width hw off), ?_, ?_⟩
  · rintro rfl h4
    exact step_refused_of_accessError h (accessError_misaligned h4)
  · rintro rfl h4 hout
    exact step_refused_of_accessError h (accessError_outside h4 hout)

/-! ## Dropped and ignored writes -/

/-- Settles O27: a write that meets a busy engine has one outcome. -/
theorem busyWritesAreDropped : Obligations.BusyWritesAreDropped := by
  intro s off v hp _ _
  obtain ⟨t, ht, ⟨-, rfl⟩ | ⟨hidle, -⟩ | ⟨hidle, -⟩ | ⟨hidle, -⟩⟩ := hostWrite_next s off v
  · exact ht
  all_goals exact absurd hidle hp

/-- R65, R66: what is not read-write holds what it held; CMD, write-only, has no storage (R26). -/
theorem memWrite_of_not_readWrite (p : Config) {tg : Target} (h : tg.access ≠ .readWrite) (v : Word) (s : State) :
    memWrite p tg v s = s := by
  cases tg with
  | id | param | cmd | status | colorLen | blockOut _ | colorBuf _ | reserved => rfl
  | ctrl | color _ | scheme | frameCfg | textLen | pixCols => exact absurd rfl h
  | opcodeBuf _ | argsBuf _ | blockIn _ | textBuf _ | pix _ => exact absurd rfl h

/-- R61, R66: a write while IDLE, to an offset other than CMD that is not read-write, changes nothing. -/
theorem hostWrite_ignored {s : State} {off : Nat} (hp : s.phase = .idle) (hcmd : off ≠ cmdOffset)
    (h : (target off).access ≠ .readWrite) (v : Word) : hostWrite s off v = .next s := by
  rw [hostWrite_idle hp hcmd, memWrite_of_not_readWrite _ h]

/-- R22: the read-only offsets. -/
theorem target_access_readOnly {off : Nat} (h4 : off % 4 = 0) (hlt : off < 0x10000)
    (h : off ≤ 0x0004 ∨ off = 0x0010 ∨ off = 0x003C ∨ (0x0070 ≤ off ∧ off < 0x0080) ∨ 0x8000 ≤ off) :
    (target off).access = .readOnly := by
  rcases h with h | rfl | rfl | ⟨h, h'⟩ | h
  · obtain rfl | rfl : off = 0x0000 ∨ off = 0x0004 := by omega
    · rfl
    · rfl
  · rfl
  · rfl
  · rw [target_blockOut h h']; rfl
  · rw [target_colorBuf h hlt]; rfl

/-- Settles O26: no write reaches what is not read-write, and no phase makes a read of CMD unspecified. -/
theorem ignoredWritesChangeNothing : Obligations.IgnoredWritesChangeNothing := by
  refine ⟨fun s off v hp h4 hlt => ⟨fun hro => ?_, fun hres => ?_⟩, fun s => ?_⟩
  · have hacc := target_access_readOnly h4 hlt hro
    exact hostWrite_ignored hp (by simp only [cmdOffset]; omega) (by rw [hacc]; decide) v
  · have ht := target_reserved h4 hres
    refine ⟨hostWrite_ignored hp (by simp only [cmdOffset]; omega) (by rw [ht]; decide) v, ?_⟩
    rw [hostRead_idle hp, memRead, ht]
  · exact hostRead_fixed (by decide) (by decide) (by decide)

/-! ## Reads of the regions -/

/-- R64: byte `j` of a word made of four bytes is the one numbered `j`. -/
theorem extractLsb'_wordOf (f : Nat → Byte) {j : Nat} (hj : j < 4) :
    (wordOf (f 0) (f 1) (f 2) (f 3)).extractLsb' (8 * j) 8 = f j := by
  obtain ⟨h0, h1, h2, h3⟩ := byteOf_wordOf (f 0) (f 1) (f 2) (f 3)
  obtain rfl | rfl | rfl | rfl : j = 0 ∨ j = 1 ∨ j = 2 ∨ j = 3 := by omega
  exacts [h0, h1, h2, h3]

/-- R60, R64: the value stored at an offset of a byte region is its four bytes. -/
theorem memRead_bytes (p : Config) (s : State) {off : Nat}
    (h : (0x0040 ≤ off ∧ off < 0x0080) ∨ (0x0100 ≤ off ∧ off < 0x0140)) : memRead p s off = s.mem.readWord off := by
  obtain ⟨h, h'⟩ | ⟨h, h'⟩ | ⟨h, h'⟩ | ⟨h, h'⟩ | ⟨h, h'⟩ : (0x40 ≤ off ∧ off < 0x50) ∨ (0x50 ≤ off ∧ off < 0x60) ∨
    (0x60 ≤ off ∧ off < 0x70) ∨ (0x70 ≤ off ∧ off < 0x80) ∨ (0x100 ≤ off ∧ off < 0x140) := by omega
  · simp only [memRead, target_opcodeBuf h h', regionBase, Nat.add_sub_cancel' h]
  · simp only [memRead, target_argsBuf h h', regionBase, Nat.add_sub_cancel' h]
  · simp only [memRead, target_blockIn h h', regionBase, Nat.add_sub_cancel' h]
  · simp only [memRead, target_blockOut h h', regionBase, Nat.add_sub_cancel' h]
  · simp only [memRead, target_textBuf h h', regionBase, Nat.add_sub_cancel' h]

/-- R46: the value stored at an offset of COLOR_BUF. -/
theorem memRead_colorBuf (p : Config) (s : State) {k : Nat} (h : 0x8000 + k < 0x10000) : memRead p s (0x8000 + k) =
    wordOf (s.colorByte p k) (s.colorByte p (k + 1)) (s.colorByte p (k + 2)) (s.colorByte p (k + 3)) := by
  simp only [memRead, target_colorBuf (Nat.le_add_right _ k) h, Nat.add_sub_cancel_left]

/-- Settles O30: while IDLE a read is the stored value, and that is four bytes in order. -/
theorem idleReadsReturnTheStoredBytes : Obligations.IdleReadsReturnTheStoredBytes := by
  intro s off hp _
  refine ⟨fun hr => ⟨_, hostRead_idle hp off, fun j hj => ?_⟩, ?_⟩
  · rw [memRead_bytes _ _ hr, byteOf_readWord _ _ _ hj, byteAt_eq]
  · rintro k rfl hlt
    refine ⟨_, hostRead_idle hp _, fun j hj => ?_⟩
    rw [memRead_colorBuf _ _ hlt, Nat.add_assoc]
    exact extractLsb'_wordOf (fun i => s.colorByte Config.device (k + i)) hj

/-- Settles O23: the stores of one word, and the read of the same word back. -/
theorem regionWritesAreLittleEndian : Obligations.RegionWritesAreLittleEndian := by
  intro s off v hp hm _ hr
  refine ⟨_, hostWrite_bytes hp hr v, fun j hj => ?_, fun a ha => ?_, rfl, ?_⟩
  · exact read_writeCells_wordCells hm off v hj
  · exact read_writeCells_wordCells_other s.mem off v ha
  · rw [hostRead_idle (by exact hp), memRead_bytes _ _ (by omega)]
    simp only [readWord_writeCells_wordCells hm]

/-! ## Unspecified reads -/

/-- R69: the registers that a running command outputs. -/
theorem outputs_registerAt {d : Running} {off : Nat} (h : off < 0x0040) :
    d.outputs (registerAt off) = true ↔ (d = .render ∧ off = 0x0038) ∨ (d = .encode ∧ off = 0x003C) := by
  have table : ∀ d ∈ [Running.frame, .sealBlock, .render, .encode, .illegal], ∀ o < 0x0040,
      (d.outputs (registerAt o) = true ↔ (d = .render ∧ o = 0x0038) ∨ (d = .encode ∧ o = 0x003C)) := by decide
  exact table d (by cases d <;> decide) off h

/-- R69: the offsets that a running command outputs: at and above 0x0040 each target has at most one command that outputs it. -/
theorem outputs_target_iff {d : Running} {off : Nat} (hlt : off < 0x10000) : d.outputs (target off) = true ↔
    (d = .frame ∧ 0x0060 ≤ off ∧ off < 0x0070) ∨ (d = .sealBlock ∧ 0x0070 ≤ off ∧ off < 0x0080) ∨
      (d = .render ∧ (off = 0x0038 ∨ (0x0400 ≤ off ∧ off < 0x0800))) ∨ (d = .encode ∧ (off = 0x003C ∨ 0x8000 ≤ off)) := by
  rcases target_cases off with ⟨h, ht⟩ | ⟨h, h', ht⟩ | ⟨h, h', ht⟩ | ⟨h, h', ht⟩ | ⟨h, h', ht⟩ | ⟨h, h', ht⟩ | ⟨h, h', ht⟩ |
    ⟨h, -, ht⟩ | ⟨h, ht⟩ <;> rw [ht]
  · rw [outputs_registerAt h]; grind
  all_goals cases d <;> simp [Running.outputs] <;> omega

/-- R40 to R46: the offsets of the regions. -/
theorem isRegion_target_iff {off : Nat} (hlt : off < 0x10000) : (target off).isRegion = true ↔
    (0x0040 ≤ off ∧ off < 0x0080) ∨ (0x0100 ≤ off ∧ off < 0x0140) ∨ (0x0400 ≤ off ∧ off < 0x0800) ∨ 0x8000 ≤ off := by
  rcases target_cases off with ⟨h, ht⟩ | ⟨h, h', ht⟩ | ⟨h, h', ht⟩ | ⟨h, h', ht⟩ | ⟨h, h', ht⟩ | ⟨h, h', ht⟩ | ⟨h, h', ht⟩ |
    ⟨h, -, ht⟩ | ⟨h, ht⟩ <;> rw [ht]
  · simp only [registerAt_isRegion h, Bool.false_eq_true, false_iff]; omega
  all_goals simp only [Target.isRegion, true_iff, Bool.false_eq_true, false_iff]; omega

/-- R69: the reads whose value is unspecified. -/
theorem unspecifiedRead_target_iff (s : State) {off : Nat} (hlt : off < 0x10000) :
    unspecifiedRead s.phase (target off) = true ↔
      (s.phase = .init ∧ ((0x0040 ≤ off ∧ off < 0x0080) ∨ (0x0100 ≤ off ∧ off < 0x0140) ∨ (0x0400 ≤ off ∧ off < 0x0800) ∨
          0x8000 ≤ off)) ∨
        (s.phase = .busy .frame ∧ 0x0060 ≤ off ∧ off < 0x0070) ∨
        (s.phase = .busy .sealBlock ∧ 0x0070 ≤ off ∧ off < 0x0080) ∨
        (s.phase = .busy .render ∧ (off = 0x0038 ∨ (0x0400 ≤ off ∧ off < 0x0800))) ∨
        (s.phase = .busy .encode ∧ (off = 0x003C ∨ 0x8000 ≤ off)) := by
  cases hp : s.phase with
  | idle => simp [unspecifiedRead]
  | init => simp only [unspecifiedRead, isRegion_target_iff hlt, true_and, reduceCtorEq, false_and, or_false]
  | busy d => simp only [unspecifiedRead, outputs_target_iff hlt, reduceCtorEq, false_and, false_or, Phase.busy.injEq]

/-- R69: an unspecified read returns four bytes drawn for it. -/
theorem hostRead_unspecified {s : State} {off : Nat} (h : unspecifiedRead s.phase (target off) = true) :
    hostRead s off = (freeWord s.draws, { s with draws := s.draws + 4 }) := if_pos h

/-- R60: every other read returns the stored value. -/
theorem hostRead_specified {s : State} {off : Nat} (h : ¬ unspecifiedRead s.phase (target off) = true) :
    hostRead s off = (memRead Config.device s off, s) := if_neg h

/-- Settles O29: by whether the read is one of R69's. -/
theorem unspecifiedReadsAreFreeDraws : Obligations.UnspecifiedReadsAreFreeDraws := by
  intro s off _ hlt
  rw [← unspecifiedRead_target_iff s hlt]
  refine ⟨fun h => ⟨_, hostRead_unspecified h, fun j hj => ?_⟩, hostRead_specified⟩
  exact extractLsb'_wordOf (fun i => Config.freeByte (s.draws + i)) hj

/-! ## COLOR_BUF and COLOR_LEN -/

/-- R78: no completion but ENCODE's writes COLOR_BUF or COLOR_LEN. -/
theorem exec_keeps_colorBuf {i : Instr} {s t : State} (hi : i ≠ .clear) (henc : i ≠ .encode) (h : exec i s = .next t) :
    (∀ a, 0x8000 ≤ a → t.byteAt a = s.byteAt a) ∧ t.colorLen = s.colorLen := by
  rcases exec_mem hi h with ⟨hm, hl⟩ | ⟨-, hl, bs, hlen, hm⟩ | ⟨-, hl, bs, hlen, hm⟩ | ⟨-, hl, ws, hlen, -, hm⟩ | ⟨he, -⟩
  · exact ⟨fun a _ => byteAt_congr hm a, hl⟩
  · refine ⟨fun a ha => ?_, hl⟩
    rw [byteAt_eq, hm]; exact read_writeCells_byteCells_other _ _ _ (.inr (by omega))
  · refine ⟨fun a ha => ?_, hl⟩
    rw [byteAt_eq, hm]; exact read_writeCells_byteCells_other _ _ _ (.inr (by omega))
  · have hmax := maxCols_le Config.device
    refine ⟨fun a ha => ?_, hl⟩
    rw [byteAt_eq, hm]; exact read_writeCells_wordsCells_other _ _ _ (.inr (by omega))
  · exact absurd he henc

/-- R39, R78: what a step does to COLOR_LEN: it keeps it, but for reset and a running command's completion. -/
theorem step_colorLen {s t : State} (h : step s = .next t) :
    t.colorLen = s.colorLen ∨ s.hostRuns .pulseRst ∨
      ∃ d i, s.engineCompletes d ∧ d.instr? = some i ∧ exec i s = .next t := by
  rcases step_next h with ⟨-, -, rfl⟩ | ⟨-, -, rfl⟩ | hexec | ⟨n, -, hhost⟩
  · exact .inl rfl
  · exact .inl rfl
  · exact .inr (.inr hexec)
  rcases hhost with ⟨_, _, rfl, -⟩ | ⟨hpulse, -⟩ | ⟨off, v, -, -, -, hwrite⟩
  · exact .inl rfl
  · exact .inr (.inl hpulse)
  rcases hwrite with ⟨-, rfl⟩ | ⟨-, -, -, rfl⟩ | ⟨-, -, -, d, -, rfl⟩ | ⟨-, -, rfl⟩
  · exact .inl rfl
  · exact .inl rfl
  · exact .inl rfl
  · obtain ⟨-, -, -, -, -, hkeep⟩ := memWrite_keeps Config.device (target off) v s.hostAdvance
    exact .inl (by rw [hkeep, hostAdvance_colorLen])

/-- R81: the running command that completes as ENCODE is ENCODE. -/
theorem eq_encode_of_instr? {d : Running} (h : d.instr? = some .encode) : d = .encode := by
  simpa [runningOf] using (runningOf_eq_some.2 h).symm

/-- Settles O47: by the step's cases on the storage and on COLOR_LEN, both being read-only to the host. -/
theorem colourBufferChangesOnlyByEncode : Obligations.ColourBufferChangesOnlyByEncode := by
  intro s t h henc hinit hreset
  have hexec : ∀ {d i}, s.engineCompletes d → d.instr? = some i → exec i s = .next t →
      (∀ a, 0x8000 ≤ a → t.byteAt a = s.byteAt a) ∧ t.colorLen = s.colorLen := by
    intro d i hd hi he
    refine exec_keeps_colorBuf (ne_clear_of_running hi) ?_ he
    rintro rfl
    exact henc (eq_encode_of_instr? hi ▸ hd)
  constructor
  · intro a ha
    rcases step_mem h with hm | ⟨hp, hw, -⟩ | ⟨d, i, hd, hi, he⟩ | ⟨off, v, -, hr, hm⟩ | ⟨c, v, hc, hm⟩
    · exact byteAt_congr hm a
    · exact absurd ⟨hp, hw⟩ hinit
    · exact (hexec hd hi he).1 a ha
    · rw [byteAt_eq, hm]; exact read_writeCells_wordCells_other _ _ _ (by omega)
    · have hmax := maxCols_le Config.device
      rw [byteAt_eq, hm]
      exact read_writeCells_wordCells_other _ _ _ (by simp only [pixOffset, regionBase]; omega)
  · rcases step_colorLen h with hkeep | hpulse | ⟨d, i, hd, hi, he⟩
    · exact hkeep
    · exact absurd hpulse hreset
    · exact (hexec hd hi he).2

end Sys2Proof.Machine
end

section
/-! PROOFS, family 30_encoding.md: the command words, and the steps of the host's statements, of WAIT and of WRBYTES. -/

namespace Sys2Proof.Machine

/-! ## Command words -/

/-- Settles O1: each legal word is its command's encoding. -/
theorem decodesTheCommandWords : Obligations.DecodesTheCommandWords :=
  ⟨decode_eq_legal.2 rfl, decode_eq_legal.2 rfl, decode_eq_legal.2 rfl, decode_eq_legal.2 rfl, decode_eq_legal.2 rfl,
    rfl, rfl, rfl⟩

/-- R80: a word is its two fields. -/
theorem eq_of_fields_eq {v v' : Word} (hr : rsvdField v = rsvdField v') (ho : opField v = opField v') : v = v' := by
  have happ : ∀ u : Word, rsvdField u ++ opField u = u := fun u =>
    (BitVec.extractLsb'_append_extractLsb'_eq_extractLsb' rfl).trans BitVec.extractLsb'_eq_self
  rw [← happ v, ← happ v', hr, ho]

/-- R81: the opcode numbers are those up to 0x04. -/
theorem exists_opcode_iff (o : Byte) : (∃ i, o = opcode i) ↔ o.toNat ≤ 0x04 := by
  constructor
  · rintro ⟨i, rfl⟩
    cases i <;> decide
  · intro h
    have hcases : o.toNat = 0 ∨ o.toNat = 1 ∨ o.toNat = 2 ∨ o.toNat = 3 ∨ o.toNat = 4 := by omega
    rcases hcases with h | h | h | h | h
    · exact ⟨.clear, BitVec.eq_of_toNat_eq h⟩
    · exact ⟨.frame, BitVec.eq_of_toNat_eq h⟩
    · exact ⟨.sealBlock, BitVec.eq_of_toNat_eq h⟩
    · exact ⟨.render, BitVec.eq_of_toNat_eq h⟩
    · exact ⟨.encode, BitVec.eq_of_toNat_eq h⟩

/-- R81: the fields of an encoding are 0 and the opcode number. -/
theorem eq_encode_iff {v : Word} {i : Instr} : v = encode i ↔ rsvdField v = 0#24 ∧ opField v = opcode i := by
  have hr : rsvdField (encode i) = 0#24 := by cases i <;> rfl
  have ho : opField (encode i) = opcode i := by cases i <;> rfl
  constructor
  · rintro rfl
    exact ⟨hr, ho⟩
  · rintro ⟨hr', ho'⟩
    exact eq_of_fields_eq (hr'.trans hr.symm) (ho'.trans ho.symm)

/-- R84: the legal words by their fields. -/
theorem exists_decode_legal_iff (v : Word) :
    (∃ i, decode v = .legal i) ↔ rsvdField v = 0#24 ∧ (opField v).toNat ≤ 0x04 := by
  simp only [decode_eq_legal, eq_encode_iff, exists_and_left, exists_opcode_iff]

/-- R83, R84: a word is illegal exactly when it is not legal. -/
theorem exists_decode_illegal_iff (v : Word) : (∃ why, decode v = .illegal why) ↔ ¬ ∃ i, decode v = .legal i := by
  cases decode v with
  | legal i => simp
  | illegal why => simp

/-- Settles O2: by the two fields of a word, illegal being what is not legal. -/
theorem legalWordsAreTheFiveEncodings : Obligations.LegalWordsAreTheFiveEncodings := by
  refine ⟨fun v i => decode_eq_legal, exists_decode_legal_iff, fun v => ?_, rfl, rfl, rfl, rfl, rfl⟩
  rw [exists_decode_illegal_iff, exists_decode_legal_iff, not_and_or, not_le]
  exact Iff.rfl

/-! ## COLOR -/

/-- R34: the offset of a colour register names it. -/
theorem target_colorRegOffset (reg : ColorReg) : target (colorRegOffset reg) = .color reg := by
  cases reg <;> rfl

/-- R34, R90: the word COLOR writes is stored as its three bytes. -/
theorem ofWord_colorWord (r g b : Byte) : Colour.ofWord (colorWord r g b) = { r := r, g := g, b := b } := by
  have hword : colorWord r g b = fieldAt 16 b ||| fieldAt 8 g ||| fieldAt 0 r := by simp [colorWord, fieldAt]
  simp only [Colour.ofWord, hword, BitVec.extractLsb'_or, Colour.mk.injEq]
  refine ⟨?_, ?_, ?_⟩
  · simp (disch := omega) only [extractLsb'_fieldAt_disjoint, extractLsb'_fieldAt_same, BitVec.zero_or]
  · simp (disch := omega) only [extractLsb'_fieldAt_disjoint, extractLsb'_fieldAt_same, BitVec.zero_or, BitVec.or_zero]
  · simp (disch := omega) only [extractLsb'_fieldAt_disjoint, extractLsb'_fieldAt_same, BitVec.or_zero]

/-- Settles O25: a write while IDLE to a colour register stores the word's colour. -/
theorem colorWritesItsTriple : Obligations.ColorWritesItsTriple := by
  intro s reg r g b hp
  have hcmd : colorRegOffset reg ≠ cmdOffset := by cases reg <;> decide
  refine ⟨_, hostWrite_idle hp hcmd _, ?_⟩
  rw [target_colorRegOffset]
  cases reg <;> simp only [memWrite, ofWord_colorWord]

/-! ## The steps of the host's statements -/

/-- R16: the host's turn in `s`, which leaves the latency at `n`: it uses up one step of it exactly while the engine is not
IDLE. -/
structure State.HostTurn (s : State) (n : Nat) : Prop where
  idle    : s.phase = .idle → n = s.wait
  running : s.phase ≠ .idle → s.wait = n + 1

section HostSteps
variable {s : State} {off x : Nat}

/-- The step in which the host runs `stmt` is that statement in the host's turn. -/
theorem hostRuns_turn {stmt : HostStmt} (h : s.hostRuns stmt) :
    ∃ n, s.HostTurn n ∧ step s = runStmt { s with wait := n } stmt := by
  obtain ⟨n, ⟨hp, hn⟩ | ⟨hp, hn⟩, hstep⟩ := hostRuns_step h
  · exact ⟨n, ⟨fun _ => hn, fun hp' => absurd hp hp'⟩, hstep⟩
  · exact ⟨n, ⟨fun hp' => absurd hp' hp, fun _ => hn⟩, hstep⟩

/-- R61, R85: an aligned write inside the window is the bus write, the host being past it. -/
theorem runStmt_write (h4 : off % 4 = 0) (hlt : off < 0x10000) (s : State) (v : Word) :
    runStmt s (.write 32 off v) = hostWrite s.hostAdvance off v := by
  simp only [runStmt, accessError_eq_none.2 ⟨rfl, h4, hlt⟩]

/-- R60, R85: an aligned read inside the window puts the value of the bus read in the variable. -/
theorem runStmt_read (h4 : off % 4 = 0) (hlt : off < 0x10000) (s : State) (x : Nat) :
    runStmt s (.read 32 off x) = .next ((hostRead s off).2.setHostVar x (hostRead s off).1).hostAdvance := by
  simp only [runStmt, accessError_eq_none.2 ⟨rfl, h4, hlt⟩]

/-- A read does not depend on the rest of the latency. -/
theorem hostRead_wait (s : State) (n off : Nat) :
    hostRead { s with wait := n } off = ((hostRead s off).1, { (hostRead s off).2 with wait := n }) := by
  by_cases h : unspecifiedRead s.phase (target off) = true
  · rw [hostRead_unspecified h, hostRead_unspecified (s := { s with wait := n }) h]
  · rw [hostRead_specified h, hostRead_specified (s := { s with wait := n }) h]
    rfl

/-- R60, R85: the step in which the host runs a read. -/
theorem step_read (h : s.hostRuns (.read 32 off x)) (h4 : off % 4 = 0) (hlt : off < 0x10000) :
    ∃ n, s.HostTurn n ∧ step s = .next { s with
      wait := n
      draws := (hostRead s off).2.draws
      host := { s.host with vars := Table.write s.host.vars x (hostRead s off).1, pc := s.host.pc + 1 } } := by
  obtain ⟨n, hn, hstep⟩ := hostRuns_turn h
  obtain ⟨d, hd⟩ := hostRead_state s off
  refine ⟨n, hn, ?_⟩
  rw [hstep, runStmt_read h4 hlt, hostRead_wait, hd]
  rfl

/-- R85: the step in which the host runs a BNZ. -/
theorem step_bnz {k : Nat} {mask : Word} (h : s.hostRuns (.bnz x mask k)) :
    ∃ n, s.HostTurn n ∧ step s = .next { s with
      wait := n
      host := { s.host with pc := if s.hostVar x &&& mask ≠ 0#32 then k else s.host.pc + 1 } } := by
  obtain ⟨n, hn, hstep⟩ := hostRuns_turn h
  refine ⟨n, hn, ?_⟩
  have hvar : State.hostVar { s with wait := n } x = s.hostVar x := rfl
  rw [hstep, runStmt, hvar]
  by_cases hbit : s.hostVar x &&& mask ≠ 0#32
  · rw [if_pos hbit]; exact if_pos hbit
  · rw [if_neg hbit]; exact if_neg hbit

/-- R85: the step in which the host runs a CHECK. -/
theorem step_check {mask value : Word} (h : s.hostRuns (.check x mask value)) :
    ∃ n, step s = if s.hostVar x &&& mask = value
      then .next { s with wait := n, host := { s.host with pc := s.host.pc + 1 } }
      else .fault (.hostCheckFailed s.host.pc) := by
  obtain ⟨n, -, hstep⟩ := hostRuns_turn h
  exact ⟨n, hstep⟩

end HostSteps

/-- Settles O28: by the step in which the host runs the statement. -/
theorem hostAccessesReachTheBus : Obligations.HostAccessesReachTheBus := by
  refine ⟨fun s off v h h4 hlt => ⟨fun hp => ?_, fun n hp hw => ?_⟩, fun s off x h h4 hlt => ?_⟩
  · rw [hostRuns_idle hp h, runStmt_write h4 hlt]
  · obtain ⟨m, hm, hstep⟩ := hostRuns_turn h
    obtain rfl : m = n := by have := hm.running hp; omega
    rw [hstep, runStmt_write h4 hlt]
    rfl
  · obtain ⟨n, hn, hstep⟩ := step_read h h4 hlt
    exact ⟨_, hstep, rfl, hn.idle, hn.running⟩

/-- Settles O32: by the steps of the three statements. -/
theorem hostReadsBranchesAndChecks : Obligations.HostReadsBranchesAndChecks := by
  refine ⟨fun s off x hp hv h h4 hlt => ?_, fun s x k mask h => ?_, fun s x mask value h => ?_⟩
  · obtain ⟨n, hn, hstep⟩ := step_read h h4 hlt
    obtain rfl := hn.idle hp
    rw [hostRead_idle hp] at hstep
    exact ⟨_, hstep, (Table.read_write hv x x _).trans (if_pos rfl),
      fun y hy => (Table.read_write hv x y _).trans (if_neg hy), rfl⟩
  · obtain ⟨n, -, hstep⟩ := step_bnz h
    exact ⟨_, hstep, fun hne => if_pos hne, fun heq => if_neg (not_not.2 heq), rfl⟩
  · obtain ⟨n, hstep⟩ := step_check h
    exact ⟨fun heq => ⟨_, hstep.trans (if_pos heq), rfl⟩, fun hne => hstep.trans (if_neg hne)⟩

/-! ## The host's variables -/

/-- R97, R98: a command's effect leaves the host alone. -/
theorem exec_host {i : Instr} {s t : State} (h : exec i s = .next t) : t.host = s.host := by
  obtain ⟨u, hu, hcases⟩ := exec_next i s
  obtain rfl : u = t := by simpa [hu] using h
  rcases hcases with ⟨-, rfl⟩ | ⟨-, ⟨e, rfl⟩ | ⟨_, _, _, rfl⟩⟩ <;> rfl

/-- Settles O45: only a read changes the variables, and it writes one of them. -/
theorem everyStepKeepsTheHostVariables : Obligations.EveryStepKeepsTheHostVariables := by
  intro s t hs h
  rcases step_next h with ⟨-, -, rfl⟩ | ⟨-, -, rfl⟩ | ⟨d, i, -, -, hexec⟩ | ⟨n, -, hhost⟩
  · exact hs
  · exact hs
  · rw [exec_host hexec]; exact hs
  rcases hhost with ⟨_, _, rfl, -, hkeep⟩ | ⟨-, rfl⟩ | ⟨off, v, -, -, -, hwrite⟩
  · exact hkeep hs
  · exact hs
  rcases hwrite with ⟨-, rfl⟩ | ⟨-, -, -, rfl⟩ | ⟨-, -, -, d, -, rfl⟩ | ⟨-, -, rfl⟩
  · exact hs
  · exact hs
  · exact hs
  · obtain ⟨-, -, -, -, hhost, -⟩ := memWrite_keeps Config.device (target off) v s.hostAdvance
    rw [hhost]; exact hs

/-! ## WAIT -/

/-- R97, R98, R101, R181: the engine's turn ends its phase and leaves the host alone. -/
theorem engineStep_ends (s : State) : ∃ t, engineStep s = .next t ∧ t.phase = .idle ∧ t.host = s.host := by
  obtain ⟨t, ht, hcases⟩ := engineStep_next s
  refine ⟨t, ht, ?_⟩
  rcases hcases with ⟨hp, rfl⟩ | ⟨-, rfl⟩ | ⟨-, rfl⟩ | ⟨d, i, -, hd, hexec⟩
  · exact ⟨hp, rfl⟩
  · exact ⟨rfl, rfl⟩
  · exact ⟨rfl, rfl⟩
  · exact ⟨exec_phase_of_running hd hexec, exec_host hexec⟩

/-- R27, R69: STATUS is read as it stands, in every phase. -/
theorem hostRead_status (s : State) : hostRead s statusOffset = (s.statusWord, s) :=
  hostRead_fixed (by decide) (by decide) (by decide)

/-- R28: bit 0 of STATUS is 1 exactly when the phase is not IDLE. -/
theorem statusWord_busy_iff (s : State) : s.statusWord.getLsbD 0 = true ↔ s.phase ≠ .idle := by
  obtain ⟨hbusy, -⟩ := statusWord_flags s
  rw [hbusy, State.busy, decide_eq_true_eq]

/-- R87: BNZ under the mask 1 branches on bit 0. -/
theorem and_one_ne_zero_iff (v : Word) : v &&& 1#32 ≠ 0#32 ↔ v.getLsbD 0 = true := by
  rw [BitVec.and_one_eq_setWidth_ofBool_getLsbD]
  cases v.getLsbD 0 <;> decide

/-- R87: the host is at one of the two statements of WAIT, which stand at `k` of `s₀`'s program. It comes to the branch only
from a read of STATUS with BUSY = 1, and has changed no other variable of `s₀`. -/
structure InWait (s₀ : State) (k x : Nat) (s : State) : Prop where
  read   : s₀.host.prog[k]? = some (.read 32 statusOffset x)
  branch : s₀.host.prog[k + 1]? = some (.bnz x 1#32 k)
  prog   : s.host.prog = s₀.host.prog
  vars   : Table.Wf s.host.vars
  others : ∀ y, y ≠ x → s.hostVar y = s₀.hostVar y
  pc     : s.host.pc = k ∨ (s.host.pc = k + 1 ∧ (s.hostVar x).getLsbD 0 = true)

section Wait
variable {s₀ s : State} {k x : Nat}

/-- WAIT does not depend on SMFE's state. -/
theorem InWait.congr {t : State} (h : InWait s₀ k x s) (ht : t.host = s.host) : InWait s₀ k x t where
  read := h.read
  branch := h.branch
  prog := by rw [ht]; exact h.prog
  vars := by rw [ht]; exact h.vars
  others y hy := by rw [State.hostVar, ht]; exact h.others y hy
  pc := by rw [State.hostVar, ht]; exact h.pc

/-- R87: the step of WAIT's read puts STATUS in its variable. -/
theorem InWait.step_read (h : InWait s₀ k x s) (hpc : s.host.pc = k) (hturn : s.phase = .idle ∨ 0 < s.wait) :
    ∃ n, s.HostTurn n ∧ step s = .next { s with
      wait := n
      host := { s.host with vars := Table.write s.host.vars x s.statusWord, pc := k + 1 } } := by
  have hruns : s.hostRuns (.read 32 statusOffset x) := ⟨by rw [h.prog, hpc]; exact h.read, hturn⟩
  obtain ⟨n, hn, hstep⟩ := Machine.step_read hruns (by decide) (by decide)
  rw [hostRead_status, hpc] at hstep
  exact ⟨n, hn, hstep⟩

/-- R87: the step of WAIT's branch goes back to the read exactly when BUSY was read as 1. -/
theorem step_waitBranch (hprog : s.host.prog[k + 1]? = some (.bnz x 1#32 k)) (hpc : s.host.pc = k + 1)
    (hturn : s.phase = .idle ∨ 0 < s.wait) :
    ∃ n, s.HostTurn n ∧ step s = .next { s with
      wait := n
      host := { s.host with pc := if (s.hostVar x).getLsbD 0 = true then k else k + 2 } } := by
  have hruns : s.hostRuns (.bnz x 1#32 k) := ⟨by rw [hpc]; exact hprog, hturn⟩
  obtain ⟨n, hn, hstep⟩ := step_bnz hruns
  simp only [and_one_ne_zero_iff, hpc] at hstep
  exact ⟨n, hn, hstep⟩

/-- R87: from the branch WAIT goes back to the read. -/
theorem InWait.step_branch (h : InWait s₀ k x s) (hpc : s.host.pc = k + 1) (hbit : (s.hostVar x).getLsbD 0 = true)
    (hturn : s.phase = .idle ∨ 0 < s.wait) :
    ∃ n, s.HostTurn n ∧
      step s = .next { s with wait := n, host := { s.host with pc := k } } ∧
      InWait s₀ k x { s with wait := n, host := { s.host with pc := k } } := by
  obtain ⟨n, hn, hstep⟩ := step_waitBranch (by rw [h.prog]; exact h.branch) hpc hturn
  rw [if_pos hbit] at hstep
  exact ⟨n, hn, hstep, { h with pc := .inl rfl }⟩

/-- R87: a step of WAIT while the engine is not IDLE stays in WAIT, and it ends the phase or uses up one step of the
latency. -/
theorem InWait.step_running (h : InWait s₀ k x s) (hp : s.phase ≠ .idle) :
    ∃ t, step s = .next t ∧ InWait s₀ k x t ∧ (t.phase = .idle ∨ s.wait = t.wait + 1) := by
  rcases step_eq s with ⟨hidle, -⟩ | ⟨-, -, hengine⟩ | ⟨-, m, hm, -⟩
  · exact absurd hidle hp
  · obtain ⟨t, ht, hphase, hhost⟩ := engineStep_ends s
    exact ⟨t, hengine.trans ht, h.congr hhost, .inl hphase⟩
  have hturn : s.phase = .idle ∨ 0 < s.wait := .inr (by omega)
  rcases h.pc with hpc | ⟨hpc, hbit⟩
  · obtain ⟨n, hn, hstep⟩ := h.step_read hpc hturn
    have hvar := fun y => Table.read_write h.vars x y s.statusWord
    have hbusy := (statusWord_busy_iff s).2 hp
    rw [← (hvar x).trans (if_pos rfl)] at hbusy
    exact ⟨_, hstep, { h with
      vars := Table.write_wf h.vars _ _
      others := fun y hy => ((hvar y).trans (if_neg hy)).trans (h.others y hy)
      pc := .inr ⟨rfl, hbusy⟩ }, .inr (hn.running hp)⟩
  · obtain ⟨n, hn, hstep, hnext⟩ := h.step_branch hpc hbit hturn
    exact ⟨_, hstep, hnext, .inr (hn.running hp)⟩

/-- R16, R99, R181: in WAIT the phase becomes IDLE, every latency being finite. -/
theorem InWait.run_to_idle (h : InWait s₀ k x s) :
    ∃ n t, Sys2Proof.core.run n s = .next t ∧ InWait s₀ k x t ∧ t.phase = .idle := by
  induction hw : s.wait using Nat.strong_induction_on generalizing s with
  | _ w ih =>
    by_cases hp : s.phase = .idle
    · exact ⟨0, s, rfl, h, hp⟩
    · obtain ⟨t, hstep, ht, hphase | hwait⟩ := h.step_running hp
      · exact ⟨1, t, run_next hstep, ht, hphase⟩
      · obtain ⟨n, u, hrun, hu⟩ := ih t.wait (by omega) ht rfl
        exact ⟨n + 1, u, (run_next hstep).trans hrun, hu⟩

/-- R87: once IDLE, WAIT comes to its read. -/
theorem InWait.run_to_read (h : InWait s₀ k x s) (hp : s.phase = .idle) :
    ∃ n t, Sys2Proof.core.run n s = .next t ∧ InWait s₀ k x t ∧ t.phase = .idle ∧ t.host.pc = k := by
  rcases h.pc with hpc | ⟨hpc, hbit⟩
  · exact ⟨0, s, rfl, h, hp, hpc⟩
  · obtain ⟨n, -, hstep, hnext⟩ := h.step_branch hpc hbit (.inl hp)
    exact ⟨1, _, run_next hstep, hnext, hp, rfl⟩

/-- R87: WAIT's read while IDLE is its last: the branch falls through. -/
theorem InWait.run_out (h : InWait s₀ k x s) (hp : s.phase = .idle) (hpc : s.host.pc = k) :
    Sys2Proof.core.run 2 s = .next { s with
      host := { s.host with vars := Table.write s.host.vars x s.statusWord, pc := k + 2 } } := by
  obtain ⟨n, hn, hread⟩ := h.step_read hpc (.inl hp)
  obtain rfl := hn.idle hp
  obtain ⟨n, hn, hbranch⟩ := step_waitBranch (x := x) (k := k)
    (s := { s with host := { s.host with vars := Table.write s.host.vars x s.statusWord, pc := k + 1 } })
    (by rw [h.prog]; exact h.branch) rfl (.inl hp)
  obtain rfl := hn.idle hp
  have hidle : ¬ s.statusWord.getLsbD 0 = true := by rw [statusWord_busy_iff]; exact not_not.2 hp
  rw [State.hostVar, Table.read_write h.vars, if_pos rfl, if_neg hidle] at hbranch
  exact (run_next hread).trans (run_next hbranch)

end Wait

/-- Settles O33: WAIT runs until the phase is IDLE, comes to its read, and leaves by the branch after it. -/
theorem waitEndsWithBusyClear : Obligations.WaitEndsWithBusyClear := by
  intro s k x hvars hpc hread hbranch
  have hstart : InWait s k x s := ⟨hread, hbranch, rfl, hvars, fun _ _ => rfl, .inl hpc⟩
  obtain ⟨a, u, hrunu, hu, hpu⟩ := hstart.run_to_idle
  obtain ⟨b, t, hrunt, ht, hpt, hpct⟩ := hu.run_to_read hpu
  have hrun := ((run_add a (b + 2) hrunu).trans (run_add b 2 hrunt)).trans (ht.run_out hpt hpct)
  have hvar := fun y => Table.read_write ht.vars x y t.statusWord
  have hidle : t.statusWord.getLsbD 0 = false :=
    Bool.eq_false_iff.2 fun hbusy => (statusWord_busy_iff t).1 hbusy hpt
  have hx := (hvar x).trans (if_pos rfl)
  exact ⟨_, _, hrun, rfl, hpt, hx, (congrArg (BitVec.getLsbD · 0) hx).trans hidle, ht.prog,
    fun y hy => ((hvar y).trans (if_neg hy)).trans (ht.others y hy)⟩

/-! ## WRBYTES -/

/-- R61, R64: while IDLE, the step in which the host writes a word of a read-write byte region stores its four bytes. -/
theorem step_write_bytes {s : State} {off : Nat} {v : Word} (hp : s.phase = .idle)
    (h : s.host.prog[s.host.pc]? = some (.write 32 off v)) (h4 : off % 4 = 0)
    (hr : (0x0040 ≤ off ∧ off < 0x0070) ∨ (0x0100 ≤ off ∧ off < 0x0140)) :
    step s = .next { s with
      mem := s.mem.writeCells (wordCells off v)
      host := { s.host with pc := s.host.pc + 1 } } := by
  rw [hostRuns_idle hp ⟨h, .inl hp⟩, runStmt_write h4 (by omega), hostWrite_bytes (s := s.hostAdvance) hp hr]
  rfl

/-- R89: a run of writes of consecutive words of a read-write byte region stores the words' bytes. -/
theorem run_writes {ws : List Word} {a : Nat} {s : State} (hp : s.phase = .idle) (h4 : a % 4 = 0)
    (hr : (0x0040 ≤ a ∧ a + 4 * ws.length ≤ 0x0070) ∨ (0x0100 ≤ a ∧ a + 4 * ws.length ≤ 0x0140))
    (hprog : ∀ j (h : j < ws.length), s.host.prog[s.host.pc + j]? = some (.write 32 (a + 4 * j) ws[j])) :
    Sys2Proof.core.run ws.length s = .next { s with
      mem := s.mem.writeCells (wordsCells a ws)
      host := { s.host with pc := s.host.pc + ws.length } } := by
  induction ws generalizing a s with
  | nil => rfl
  | cons v ws ih =>
    simp only [List.length_cons] at hr ⊢
    have hfirst := step_write_bytes (off := a) (v := v) hp (hprog 0 (Nat.zero_lt_succ _)) h4 (by omega)
    have hrest : ∀ j (h : j < ws.length), s.host.prog[s.host.pc + 1 + j]? = some (.write 32 (a + 4 + 4 * j) ws[j]) := by
      intro j hj
      have hnext := hprog (j + 1) (Nat.succ_lt_succ hj)
      rwa [show s.host.pc + (j + 1) = s.host.pc + 1 + j by omega, show a + 4 * (j + 1) = a + 4 + 4 * j by omega] at hnext
    refine (run_next hfirst).trans ((ih (a := a + 4) (by exact hp) (by omega) (by omega) hrest).trans ?_)
    simp only [wordsCells, Memory.writeCells_append, Nat.add_assoc, Nat.add_comm 1]

/-- R89: there is one word for every four bytes, the last one perhaps in part. -/
theorem wordsFor_bounds (n : Nat) : n ≤ 4 * wordsFor n ∧ 4 * wordsFor n < n + 4 := by
  unfold wordsFor; omega

/-- R89: byte `j` of packed word `q`. -/
theorem byteOf_packWord (bytes : List Byte) (q : Nat) {j : Nat} (hj : j < 4) :
    byteOf (packWord bytes q) j = bytes.getD (4 * q + j) 0#8 :=
  extractLsb'_wordOf (fun j => bytes.getD (4 * q + j) 0#8) hj

/-- R89: the words WRBYTES writes. -/
def packedWords (bytes : List Byte) : List Word := (List.range (wordsFor bytes.length)).map (packWord bytes)

/-- R89: how many words WRBYTES writes. -/
theorem packedWords_length (bytes : List Byte) : (packedWords bytes).length = wordsFor bytes.length := by
  simp [packedWords]

/-- R89: statement `j` of WRBYTES writes word `j`. -/
theorem wrbytesStmts_get (base : Nat) (bytes : List Byte) {j : Nat} (h : j < (packedWords bytes).length) :
    (wrbytesStmts base bytes)[j]? = some (.write 32 (base + 4 * j) (packedWords bytes)[j]) := by
  rw [packedWords_length] at h
  simp [wrbytesStmts, packedWords, h]

/-- R89: the bytes stored with the packed words: the sequence's own, then 0x00 to the end of the last word. -/
theorem read_writeCells_packedWords {m : Memory} (hm : Memory.wf m) (a : Nat) (bytes : List Byte) {i : Nat}
    (hi : i < 4 * wordsFor bytes.length) :
    (m.writeCells (wordsCells a (packedWords bytes))).read (a + i) = bytes.getD i 0#8 := by
  have hq : i / 4 < (packedWords bytes).length := by rw [packedWords_length]; omega
  have hj : i % 4 < 4 := by omega
  have hword := readWord_writeCells_wordsCells hm a (packedWords bytes) hq
  rw [show a + i = a + 4 * (i / 4) + i % 4 by omega, ← byteOf_readWord _ _ _ hj, hword]
  have hpacked : (packedWords bytes)[i / 4] = packWord bytes (i / 4) := by simp [packedWords]
  rw [hpacked]
  exact (byteOf_packWord bytes (i / 4) hj).trans (by rw [Nat.div_add_mod])

/-- R22, R40 to R42, R44: the regions WRBYTES writes are aligned and made of whole words. -/
theorem writeRegion_range {rg : Region} (h : rg = .opcodeBuf ∨ rg = .argsBuf ∨ rg = .blockIn ∨ rg = .textBuf) :
    regionBase rg % 4 = 0 ∧ regionSize rg % 4 = 0 ∧
      ((0x0040 ≤ regionBase rg ∧ regionBase rg + regionSize rg ≤ 0x0070) ∨
        (0x0100 ≤ regionBase rg ∧ regionBase rg + regionSize rg ≤ 0x0140)) := by
  rcases h with rfl | rfl | rfl | rfl <;> decide

/-- Settles O34: the run of writes stores the packed words. -/
theorem wrbytesStoresItsBytes : Obligations.WrbytesStoresItsBytes := by
  intro s rg bytes hrg hsize hp hm hprog hpc
  have hlen := packedWords_length bytes
  obtain ⟨hcover, hlast⟩ := wordsFor_bounds bytes.length
  obtain ⟨h4, hsize4, hrange⟩ := writeRegion_range hrg
  have hr : (0x0040 ≤ regionBase rg ∧ regionBase rg + 4 * wordsFor bytes.length ≤ 0x0070) ∨
      (0x0100 ≤ regionBase rg ∧ regionBase rg + 4 * wordsFor bytes.length ≤ 0x0140) := by omega
  have hrun := run_writes (ws := packedWords bytes) hp h4 (by rw [hlen]; exact hr) fun j hj => by
    rw [hprog, hpc, Nat.zero_add]; exact wrbytesStmts_get _ _ hj
  rw [hlen, hpc, Nat.zero_add] at hrun
  refine ⟨_, hrun, fun i hi => ?_, fun i hi hlt => ?_, fun a ha => ?_, rfl⟩
  · rw [byteAt_mk, read_writeCells_packedWords hm _ _ (by omega), List.getD_eq_getElem _ _ hi]
  · rw [byteAt_mk, read_writeCells_packedWords hm _ _ hlt, List.getD_eq_default _ _ hi]
  · exact read_writeCells_wordsCells_other _ _ _ (by rw [hlen]; exact ha)

end Sys2Proof.Machine
end

section
/-! PROOFS, family 40_command_cycle.md: the issue of a command by a write to CMD, its completion, and the run between the two. -/

namespace Sys2Proof.Machine

/-! ## The issue of a command -/

/-- R95, R96: a word other than CLEAR, written to CMD while IDLE, is accepted as the command it decodes to. -/
theorem hostWrite_cmd_accepts {s : State} {v : Word} (hp : s.phase = .idle) (hv : decode v ≠ .legal .clear) :
    ∃ d, d.instr? = (decode v).instr? ∧ hostWrite s cmdOffset v = .next (accept v d s) := by
  obtain ⟨t, ht, ⟨hbusy, -⟩ | ⟨-, -, hclear, -⟩ | ⟨-, -, -, d, hd, rfl⟩ | ⟨-, hoff, -⟩⟩ := hostWrite_next s cmdOffset v
  · exact absurd hp hbusy
  · exact absurd hclear hv
  · exact ⟨d, hd, ht⟩
  · exact absurd rfl hoff

/-- R95, R100: CLEAR, written to CMD while IDLE, takes effect at once. -/
theorem hostWrite_cmd_clear {s : State} {v : Word} (hp : s.phase = .idle) (hv : decode v = .legal .clear) :
    hostWrite s cmdOffset v = .next (clearStatus s) := by
  obtain ⟨t, ht, ⟨hbusy, -⟩ | ⟨-, -, -, rfl⟩ | ⟨-, -, hne, -⟩ | ⟨-, hoff, -⟩⟩ := hostWrite_next s cmdOffset v
  · exact absurd hp hbusy
  · exact ht
  · exact absurd hv hne
  · exact absurd rfl hoff

/-- The step of a host write to CMD while IDLE is that write, the host being past it. -/
theorem step_cmd {s : State} {v : Word} (hp : s.phase = .idle) (h : s.hostRuns (.write 32 cmdOffset v)) :
    step s = hostWrite s.hostAdvance cmdOffset v :=
  (hostRuns_idle hp h).trans (runStmt_write (by decide) (by decide) s v)

/-- R101: only an illegal word runs as no instruction. -/
theorem instr?_eq_none {d : Running} : d.instr? = none ↔ d = .illegal := by
  cases d <;> simp [Running.instr?]

/-- Settles O4: what is accepted is the word's own command, and `accept` is R96. -/
theorem acceptanceRecordsTheCommand : Obligations.AcceptanceRecordsTheCommand := by
  intro s v hp hv
  obtain ⟨d, hd, hwrite⟩ := hostWrite_cmd_accepts hp hv
  have hbusy : (accept v d s).statusWord.getLsbD 0 = true := (statusWord_busy_iff _).2 (by simp)
  exact ⟨d, accept v d s, hwrite, hd, rfl, rfl, hbusy, rfl⟩

/-! ## The completion of a command -/

/-- R30, R160: every cause of an error has a code other than 0x00. -/
theorem errorCode_ne_zero (e : ErrorCode) : e.code ≠ 0x00#8 := by cases e <;> decide

/-- R38: only RENDER's completion changes PIX_COLS. -/
theorem exec_keeps_pixCols {i : Instr} {s t : State} (hi : i ≠ .render) (h : exec i s = .next t) : t.pixCols = s.pixCols := by
  cases i with
  | clear => cases h; rfl
  | frame =>
    simp only [exec, execFrame] at h
    split_ifs at h <;> cases h <;> rfl
  | sealBlock => cases h; rfl
  | render => exact absurd rfl hi
  | encode =>
    simp only [exec, execEncode, Host.Outcome.next.injEq] at h
    subst h
    by_cases hw : Config.device.maxCols < s.pixCols.toNat
    · rw [encodeOn_badCols hw]; rfl
    cases hs : Style.ofField s.style with
    | none => rw [encodeOn_badStyle (Nat.not_lt.1 hw) hs]; rfl
    | some st => rw [encodeOn_ok (Nat.not_lt.1 hw) hs]; rfl

/-- R39: only ENCODE's completion changes COLOR_LEN. -/
theorem exec_keeps_colorLen {i : Instr} {s t : State} (hi : i ≠ .clear) (henc : i ≠ .encode) (h : exec i s = .next t) :
    t.colorLen = s.colorLen := by
  rcases exec_mem hi h with ⟨-, hlen⟩ | ⟨-, hlen, -⟩ | ⟨-, hlen, -⟩ | ⟨-, hlen, -⟩ | ⟨he, -⟩
  · exact hlen
  · exact hlen
  · exact hlen
  · exact hlen
  · exact absurd he henc

/-- Settles O5: a completion is an error, which changes STATUS and the phase alone, or a success. -/
theorem everyCompletionEndsIdleAndDone : Obligations.EveryCompletionEndsIdleAndDone := by
  intro i s hi
  obtain ⟨t, ht, ⟨hclear, -⟩ | ⟨-, hrun⟩⟩ := exec_next i s
  · exact absurd hclear hi
  have hpix : i ≠ .render → t.pixCols = s.pixCols := fun hr => exec_keeps_pixCols hr ht
  have hlen : i ≠ .encode → t.colorLen = s.colorLen := fun he => exec_keeps_colorLen hi he ht
  rcases hrun with ⟨e, rfl⟩ | ⟨mem, pixCols, colorLen, rfl⟩
  · exact ⟨_, ht, rfl, rfl, rfl, rfl, by simp [errorCode_ne_zero], rfl, fun _ => rfl, hpix, hlen⟩
  · exact ⟨_, ht, rfl, rfl, rfl, rfl, by simp, rfl, fun herr => by simp at herr, hpix, hlen⟩

/-! ## The engine's turn -/

/-- R16, R99: the step in which a command completes is the engine's. -/
theorem step_engineCompletes {s : State} {d : Running} (h : s.engineCompletes d) : step s = engineStep s := by
  obtain ⟨hp, hw⟩ := h
  rcases step_eq s with ⟨hidle, -⟩ | ⟨-, -, hstep⟩ | ⟨-, n, hn, -⟩
  · exact absurd (hp.symm.trans hidle) (by simp)
  · exact hstep
  · omega

/-- R101: the engine's turn on an accepted illegal word. -/
theorem engineStep_illegal {s : State} (hp : s.phase = .busy .illegal) : engineStep s = .next (raiseError .illegalCmd s) := by
  simp only [engineStep, hp, Running.instr?]

/-- Settles O7: an illegal word is accepted as what runs as no instruction, and the engine's turn on it raises ILLEGAL_CMD. -/
theorem illegalWordFails : Obligations.IllegalWordFails := by
  refine ⟨fun s v hp hv => ?_, fun s h => ?_⟩
  · obtain ⟨-, -, hillegal, -⟩ := legalWordsAreTheFiveEncodings
    obtain ⟨why, hwhy⟩ := (hillegal v).2 hv
    obtain ⟨d, hd, hwrite⟩ := hostWrite_cmd_accepts (v := v) hp (by simp [hwhy])
    rw [hwhy] at hd
    obtain rfl := instr?_eq_none.1 hd
    exact ⟨_, hwrite, rfl, rfl⟩
  · exact (step_engineCompletes h).trans (engineStep_illegal h.1)

/-- Settles O3: the step is the engine's turn, or the host's write to CMD. -/
theorem stepRunsTheDecodedCommand : Obligations.StepRunsTheDecodedCommand := by
  refine ⟨fun s d i h hd => ?_, fun s v hp h hv => ?_, fun s v i hp h hv hi => ?_⟩
  · exact (step_engineCompletes h).trans (engineStep_busy h.1 hd)
  · exact (step_cmd hp h).trans (hostWrite_cmd_clear hp hv)
  · obtain ⟨d, hd, hwrite⟩ := hostWrite_cmd_accepts (s := s.hostAdvance) (v := v) hp (by simpa [hv] using hi)
    exact ⟨d, by rw [hd, hv, Decoded.instr?], (step_cmd hp h).trans hwrite⟩

/-! ## CLEAR -/

/-- R27, R100: STATUS reads 0 while IDLE with every stored field 0. -/
theorem statusWord_eq_zero {s : State} (hp : s.phase = .idle) (hs : s.status = Status.zero) : s.statusWord = 0x00000000#32 := by
  have hbusy : s.busy = false := by simp [State.busy, hp]
  have hinit : s.initBit = false := by simp [State.initBit, hp]
  rw [State.statusWord, hbusy, hinit, hs]
  decide

/-- Settles O6: CLEAR's effect by its issue while IDLE, and its loss as any write while busy. -/
theorem clearAcknowledgesStatus : Obligations.ClearAcknowledgesStatus := by
  refine ⟨fun s => rfl, fun s hp => ?_, fun s hp => busyWritesAreDropped s _ _ hp (by decide) (by decide), fun v hv hclear => ?_⟩
  · exact ⟨_, hostWrite_cmd_clear hp (by decide), rfl, statusWord_eq_zero hp rfl, rfl⟩
  · obtain ⟨hrsvd, -⟩ := eq_encode_iff.1 (decode_eq_legal.1 hclear)
    exact hv hrsvd

/-! ## From acceptance to completion -/

/-- R97, R98: a completion sets DONE. -/
theorem exec_done_of_running {d : Running} {i : Instr} {s t : State} (hd : d.instr? = some i) (h : exec i s = .next t) :
    t.status.done = true := by
  rcases exec_next_of_running hd h with ⟨e, rfl⟩ | ⟨_, _, _, rfl⟩ <;> rfl

/-- R97, R101: the engine's turn on a running command, legal or not, ends IDLE with DONE set; and a state that differs in BUSYWR,
the schedule and the host only gives the same result but for these. -/
theorem engineStep_completes {s : State} {d : Running} (hp : s.phase = .busy d) : ∃ u, engineStep s = .next u ∧
    u.phase = .idle ∧ u.status.done = true ∧ ∀ (b : Bool) (n k : Nat) (ho : HostAgent),
      engineStep { s with status := { s.status with busyWr := b }, wait := n, draws := k, host := ho } =
        .next { u with status := { u.status with busyWr := b }, wait := n, draws := k, host := ho } := by
  cases hd : d.instr? with
  | none =>
    obtain rfl := instr?_eq_none.1 hd
    exact ⟨_, engineStep_illegal hp, rfl, rfl, fun b n k ho => engineStep_illegal hp⟩
  | some i =>
    obtain ⟨u, hu, -⟩ := exec_next i s
    refine ⟨u, (engineStep_busy hp hd).trans hu, exec_phase_of_running hd hu, exec_done_of_running hd hu, fun b n k ho => ?_⟩
    have hexec := exec_of_running i s b n k ho (ne_clear_of_running hd) u hu
    exact (engineStep_busy (d := d) (by exact hp) hd).trans hexec

/-- R97, R99: the run to the completion of a running command, when it goes on: the engine's turn on the first state, but for
BUSYWR, the schedule and the host, which the host's steps before it may change. -/
theorem run_to_completion {s t : State} {d : Running} (hp : s.phase = .busy d) (hr : neverResets s)
    (h : Sys2Proof.core.run (s.wait + 1) s = .next t) : ∃ u, engineStep s = .next u ∧ u.phase = .idle ∧ u.status.done = true ∧
      t = { u with status := { u.status with busyWr := t.status.busyWr }, wait := 0, draws := t.draws, host := t.host } := by
  obtain ⟨w, hrun, hstep⟩ := run_split _ h
  -- `w`: the state in which the engine is due
  obtain ⟨hw, -⟩ := run_while_running s.wait (by simp [hp]) le_rfl hr hrun
  rw [Nat.sub_self] at hw
  obtain ⟨u, hu, hidle, hdone, hframe⟩ := engineStep_completes hp
  have hdue : w.engineCompletes d := by rw [hw]; exact ⟨hp, rfl⟩
  rw [step_engineCompletes hdue, hw, hframe, Host.Outcome.next.injEq] at hstep
  exact ⟨u, hu, hidle, hdone, by rw [← hstep]⟩

/-- Settles O49: the host's steps keep the operands and the phase, so the engine's turn is that on the first state. -/
theorem acceptedCommandCompletesOnItsOperands : Obligations.AcceptedCommandCompletesOnItsOperands := by
  intro s d hp hr
  have hne : s.phase ≠ .idle := by simp [hp]
  refine ⟨fun k t hk h => ?_, fun t h => ?_, run_progress _ hne le_rfl hr⟩
  · obtain ⟨ht, -⟩ := run_while_running k hne hk hr h
    rw [ht]; exact hp
  · obtain ⟨u, hu, hidle, hdone, ht⟩ := run_to_completion hp hr h
    refine ⟨by rw [ht]; exact hidle, by rw [ht]; exact hdone, u, ?_, ht⟩
    cases hd : d.instr? with
    | none => exact (engineStep_illegal (instr?_eq_none.1 hd ▸ hp)).symm.trans hu
    | some i => exact (engineStep_busy hp hd).symm.trans hu

end Sys2Proof.Machine
end

section
/-! PROOFS, family 41_render.md: the column count of a text, the checks RENDER makes of it, and the columns it draws. -/

namespace Sys2Proof.Machine

/-! ## The column count -/

/-- R118: the column count of a text that TEXT_BUF holds fits 12 bits. -/
theorem columnCount_lt_of_le {p : Config} {n : Nat} (h : n ≤ 64) : columnCount p n < 2 ^ 12 := by
  have hmul : n * p.gw ≤ 64 * 63 := Nat.mul_le_mul h (gw_le p)
  rw [columnCount_eq]
  omega

/-- R116: the texts that fit in `m` columns. A spacing column after the last character too would make every character GW + 1
columns wide, and the text one column wider. -/
theorem columnCount_le_iff {p : Config} {n m : Nat} : columnCount p n ≤ m ↔ n ≤ (m + 1) / (p.gw + 1) := by
  have hspaced : n * (p.gw + 1) = n * p.gw + n := Nat.mul_succ n p.gw
  rw [Nat.le_div_iff_mul_le (Nat.succ_pos _), hspaced, columnCount_eq]
  rcases Nat.eq_zero_or_pos n with rfl | hn
  · simp
  · omega

/-! ## The checks -/

/-- R111, R116: RENDER reports an error exactly when one of its two checks fails. -/
theorem renderOn_err_iff {p : Config} {s : State} : (renderOn p s).status.err = true ↔
    64 < s.textLen.toNat ∨ p.maxCols < columnCount p s.textLen.toNat := by
  by_cases hlong : 64 < s.textLen.toNat
  · simp [renderOn_tooLong hlong, hlong]
  have hlen : s.textLen.toNat ≤ 64 := Nat.not_lt.1 hlong
  by_cases hwide : p.maxCols < columnCount p s.textLen.toNat
  · simp [renderOn_tooWide hlen hwide, hwide]
  · simp [renderOn_ok hlen (Nat.not_lt.1 hwide), hlong, hwide]

/-- Settles O13: RENDER_TEXT_LEN first, then RENDER_TOO_WIDE, and no other way to fail. -/
theorem renderRefusesWhatDoesNotFit : Obligations.RenderRefusesWhatDoesNotFit := by
  refine fun p s => ⟨fun hlong => renderOn_tooLong hlong, fun _ hlen hwide => ?_, ?_⟩
  · exact renderOn_tooWide hlen (by rwa [columnCount_eq])
  · rw [renderOn_err_iff, columnCount_eq]

/-- Settles O14: for a text that TEXT_BUF holds only the width check is left, and it is the bound on the number of characters. -/
theorem largestRenderableText : Obligations.LargestRenderableText := by
  refine fun p s hlen => ⟨?_, columnCount_lt_of_le hlen⟩
  calc (renderOn p s).status.err = false
    _ ↔ ¬ (64 < s.textLen.toNat ∨ p.maxCols < columnCount p s.textLen.toNat) := by
      rw [← renderOn_err_iff, Bool.not_eq_true]
    _ ↔ columnCount p s.textLen.toNat ≤ p.maxCols := by omega
    _ ↔ s.textLen.toNat ≤ (p.maxCols + 1) / (p.gw + 1) := columnCount_le_iff

/-! ## The columns drawn -/

/-- R44: character code `i` of the text. -/
theorem textCodes_get (s : State) {i : Nat} (hi : i < s.textCodes.length) : s.textCodes[i] = s.byteAt (0x0100 + i) := by
  simp [State.textCodes, State.textByte, regionBase]

section Fits
variable {p : Config} {s : State} (hlen : s.textLen.toNat ≤ 64) (hfit : columnCount p s.textLen.toNat ≤ p.maxCols)
include hlen hfit

/-- R114, R115: RENDER draws column `j` of character `i`'s glyph. -/
theorem renderOn_glyphColumn (hm : Memory.wf s.mem) {i j : Nat} {x : Word} (hi : i < s.textLen.toNat) (hj : j < p.gw)
    (hx : (glyphColumns p (s.byteAt (0x0100 + i)))[j]? = some x) : (renderOn p s).pixColumn p (i * (p.gw + 1) + j) = x := by
  have hi' : i < s.textCodes.length := by rwa [textCodes_length]
  refine renderOn_column hm hlen hfit ?_
  rw [textColumns_glyph p _ i j hi' hj, textCodes_get s hi', hx]

/-- R115: RENDER draws a spacing column after every character but the last. -/
theorem renderOn_spacingColumn (hm : Memory.wf s.mem) {i : Nat} (hi : i + 1 < s.textLen.toNat) :
    (renderOn p s).pixColumn p (i * (p.gw + 1) + p.gw) = 0#32 :=
  renderOn_column hm hlen hfit (textColumns_space p _ i (by rwa [textCodes_length]))

/-- R113: PIX_COLS after RENDER is the column count, which does not wrap in its 9 bits. -/
theorem renderOn_pixCols : (renderOn p s).pixCols.toNat = columnCount p s.textLen.toNat := by
  have hmax : p.maxCols ≤ 256 := maxCols_le p
  have hlt : columnCount p s.textLen.toNat < 2 ^ 9 := by omega
  rw [renderOn_ok hlen hfit]
  exact Nat.mod_eq_of_lt hlt

/-- R113: RENDER writes no byte outside the columns of the text. -/
theorem renderOn_byteAt_other {a : Nat} (ha : a < 0x0400 ∨ 0x0400 + 4 * columnCount p s.textLen.toNat ≤ a) :
    (renderOn p s).byteAt a = s.byteAt a := by
  rw [renderOn_ok hlen hfit]
  refine read_writeCells_wordsCells_other s.mem 0x0400 _ ?_
  rwa [textColumns_length, textCodes_length]

end Fits

/-- Settles O12: every column of the text by its place in `textColumns`, and the frame by the form of a completion. -/
theorem renderDrawsTheText : Obligations.RenderDrawsTheText := by
  refine ⟨fun s => rfl, ?_⟩
  rintro p s t hm hlen hfit rfl
  have hcols := renderOn_pixCols hlen hfit
  refine ⟨fun i j hi hj => ?glyph, fun i hi => ?space, fun hzero => ?noText, fun _ => ?text, fun a ha => ?bytes, ?rest⟩
  case glyph => exact renderOn_glyphColumn hlen hfit hm hi hj (glyphColumns_get p _ hj)
  case space => exact renderOn_spacingColumn hlen hfit hm hi
  case noText => rw [hcols, hzero, columnCount, if_pos rfl]
  case text => rw [hcols, columnCount_eq]
  case bytes => exact renderOn_byteAt_other hlen hfit (hcols ▸ ha)
  case rest => rw [renderOn_ok hlen hfit]; rfl

end Sys2Proof.Machine
end

section
/-! PROOFS, family 42_encode.md: the pixel index and the decoration regions, the checks ENCODE makes of its operands, the colour
it selects for a pixel, and the bytes it leaves. -/

namespace Sys2Proof.Machine

/-! ## The pixel index -/

/-- R123: every number below W·ROWS is the index of a pixel: quotient and remainder by the length of a column, or of a row. -/
theorem exists_pixelIndex {p : Config} {w k : Nat} (hk : k < w * p.rows) :
    ∃ c r, c < w ∧ r < p.rows ∧ pixelIndex p c r w = k := by
  have hw : 0 < w := Nat.pos_of_mul_pos_right (Nat.zero_lt_of_lt hk)
  have hrows : 0 < p.rows := Nat.succ_pos _
  unfold pixelIndex
  cases p.scanOrder with
  | colMajor => exact ⟨k / p.rows, k % p.rows, Nat.div_lt_of_lt_mul (Nat.mul_comm w _ ▸ hk), Nat.mod_lt _ hrows,
      Nat.div_add_mod' k p.rows⟩
  | rowMajor => exact ⟨k % w, k / w, Nat.mod_lt _ hw, Nat.div_lt_of_lt_mul hk, Nat.div_add_mod' k w⟩

/-- Settles O17: the bound and injectivity are the laws of `pixelIndex`; onto by quotient and remainder. -/
theorem pixelIndexIsABijection : Obligations.PixelIndexIsABijection := by
  refine fun p w => ⟨fun hcol c r => ?_, fun hrow c r => ?_, fun c r => pixelIndex_lt,
    fun c r c' r' => pixelIndex_inj, fun k => exists_pixelIndex⟩
  · simp only [pixelIndex, hcol]
  · simp only [pixelIndex, hrow]

/-! ## The styles -/

/-- R129: the number of each style. -/
def Style.number : Style → Nat
  | .plain  => 0
  | .lines  => 1
  | .dots   => 2
  | .blocks => 3
  | .waves  => 4

/-- R35: STYLE selects the style whose number it is. -/
theorem ofField_eq_some_iff (f : BitVec 3) (st : Style) : Style.ofField f = some st ↔ f.toNat = st.number := by
  revert f; cases st <;> decide

/-- R35: the values of STYLE that select a style. -/
theorem exists_ofField_iff (f : BitVec 3) : (∃ st, Style.ofField f = some st) ↔ f.toNat ≤ 4 := by
  have hreserved := ofField_iff f
  rw [← Option.ne_none_iff_exists', Ne, hreserved]
  omega

@[simp] theorem deco_plain (p : Config) (c r w : Nat) : deco p .plain c r w = false := rfl

theorem deco_lines_iff {p : Config} {c r w : Nat} : deco p .lines c r w = true ↔ r = 0 ∨ r = p.rows - 1 := by
  simp [deco]

theorem deco_dots_iff {p : Config} {c r w : Nat} :
    deco p .dots c r w = true ↔ (r = 0 ∨ r = p.rows - 1) ∧ c % p.dotN = 0 := by
  simp [deco]

theorem deco_blocks_iff {p : Config} {c r w : Nat} : deco p .blocks c r w = true ↔ c / p.blockW % 2 = 0 := by
  simp [deco]

theorem deco_waves_iff {p : Config} {c r w : Nat} : deco p .waves c r w = true ↔ r = (p.waveRow c w).val := by
  simp [deco]

/-- Settles O18: the number picks the style, and each style has its own region. -/
theorem decorationRegions : Obligations.DecorationRegions := by
  refine ⟨fun p st f c r w hf => ?_, exists_ofField_iff⟩
  have style_of_number : ∀ st' : Style, f.toNat = st'.number → st = st' := fun st' hn =>
    Option.some.inj (hf.symm.trans ((ofField_eq_some_iff f st').2 hn))
  refine ⟨fun h0 => ?plain, fun h1 => ?lines, fun h2 => ?dots, fun h3 => ?blocks, fun h4 => ?waves⟩
  case plain => rw [style_of_number .plain h0, deco_plain]
  case lines => rw [style_of_number .lines h1, deco_lines_iff]
  case dots => rw [style_of_number .dots h2, deco_dots_iff]
  case blocks => rw [style_of_number .blocks h3, deco_blocks_iff]
  case waves => rw [style_of_number .waves h4, deco_waves_iff]

/-! ## The checks -/

/-- R121: everything ENCODE can do: one of its two errors, in their order, or a completion with the colour buffer written. -/
theorem encodeOn_cases (p : Config) (s : State) :
    (p.maxCols < s.pixCols.toNat ∧ encodeOn p s = raiseError .encodeBadCols s) ∨
    (s.pixCols.toNat ≤ p.maxCols ∧ 5 ≤ s.style.toNat ∧ encodeOn p s = raiseError .encodeBadStyle s) ∨
    (s.pixCols.toNat ≤ p.maxCols ∧ ∃ st, Style.ofField s.style = some st ∧ encodeOn p s = complete { s with
      mem      := s.mem.writeCells (encodeCells p s st)
      colorLen := BitVec.ofNat 16 (3 * s.width * p.rows) }) := by
  rcases Nat.lt_or_ge p.maxCols s.pixCols.toNat with hwide | hfit
  · exact .inl ⟨hwide, encodeOn_badCols hwide⟩
  right
  cases hst : Style.ofField s.style with
  | none => exact .inl ⟨hfit, (ofField_iff _).1 hst, encodeOn_badStyle hfit hst⟩
  | some st => exact .inr ⟨hfit, st, rfl, encodeOn_ok hfit hst⟩

/-- R121: ENCODE reports an error exactly when one of its two checks fails. -/
theorem encodeOn_err_iff {p : Config} {s : State} :
    (encodeOn p s).status.err = true ↔ p.maxCols < s.pixCols.toNat ∨ 5 ≤ s.style.toNat := by
  rcases encodeOn_cases p s with ⟨hwide, he⟩ | ⟨-, hstyle, he⟩ | ⟨hfit, st, hst, he⟩
  · simp [he, hwide]
  · simp [he, hstyle]
  · have hlegal : s.style.toNat ≤ 4 := (exists_ofField_iff _).1 ⟨st, hst⟩
    rw [he, complete_status]
    simp only [Bool.false_eq_true, false_iff]
    omega

/-- Settles O16: ENCODE_BAD_COLS first, then ENCODE_BAD_STYLE, and no other way to fail. -/
theorem encodeChecksItsOperands : Obligations.EncodeChecksItsOperands := fun _ s =>
  ⟨fun hwide => encodeOn_badCols hwide, fun hfit hstyle => encodeOn_badStyle hfit ((ofField_iff s.style).2 hstyle),
    encodeOn_err_iff⟩

/-! ## The colour of a pixel -/

/-- R126: the three colours and when each is selected. -/
theorem colorOf_eq (p : Config) (s : State) (st : Style) (c r : Nat) :
    colorOf p s st c r = if s.pixel p c r = false then s.bgColor
      else if s.sep = true ∧ deco p st c r s.pixCols.toNat = true then s.decoColor else s.fgColor := by
  rw [colorOf, State.width]
  cases s.pixel p c r with
  | false => rfl
  | true => cases s.sep <;> cases deco p st c r s.pixCols.toNat <;> rfl

/-- R127, R138: a pixel that no decoration applies to is FG_COLOR when on and BG_COLOR when off. -/
theorem colorOf_undecorated {p : Config} {s : State} {st : Style} (h : st = .plain ∨ s.sep = false) (c r : Nat) :
    colorOf p s st c r = if s.pixel p c r then s.fgColor else s.bgColor := by
  have hdeco : ¬ (s.sep = true ∧ deco p st c r s.pixCols.toNat = true) := by
    rcases h with rfl | hsep
    · simp
    · simp [hsep]
  rw [colorOf_eq, if_neg hdeco]
  cases s.pixel p c r <;> rfl

/-- R138: two states with the same memory, FG_COLOR and BG_COLOR give an undecorated pixel the same colour. -/
theorem colorOf_undecorated_congr {p : Config} {s s' : State} {st st' : Style} (h : st = .plain ∨ s.sep = false)
    (h' : st' = .plain ∨ s'.sep = false) (hm : s.mem = s'.mem) (hfg : s.fgColor = s'.fgColor) (hbg : s.bgColor = s'.bgColor)
    (c r : Nat) : colorOf p s st c r = colorOf p s' st' c r := by
  rw [colorOf_undecorated h, colorOf_undecorated h', State.pixel, State.pixel, pixColumn_congr p hm, hfg, hbg]

/-- R120, R126: the colour of a pixel depends on its column, the width, SCHEME and the three colours alone. -/
theorem colorOf_congr {p : Config} {s s' : State} {c : Nat} (hpix : s.pixColumn p c = s'.pixColumn p c)
    (hw : s.pixCols = s'.pixCols) (hsep : s.sep = s'.sep) (hfg : s.fgColor = s'.fgColor) (hbg : s.bgColor = s'.bgColor)
    (hdeco : s.decoColor = s'.decoColor) (st : Style) (r : Nat) : colorOf p s st c r = colorOf p s' st c r := by
  simp only [colorOf, State.pixel, State.width, hpix, hw, hsep, hfg, hbg, hdeco]

/-- R120: ENCODE's stores depend on the state through the width and the colours of the pixels alone. -/
theorem encodeCells_congr {p : Config} {s s' : State} {st st' : Style} (hw : s.pixCols = s'.pixCols)
    (hcol : ∀ c r, colorOf p s st c r = colorOf p s' st' c r) : encodeCells p s st = encodeCells p s' st' := by
  simp only [encodeCells, State.width, hw, hcol]

/-- R120: two states with the same memory and width whose styles are both legal or both not, and whose pixels have the same
colours, get the same storage. -/
theorem encodeOn_mem_congr {p : Config} {s s' : State} (hm : s.mem = s'.mem) (hw : s.pixCols = s'.pixCols)
    (hlegal : s.style.toNat ≤ 4 ↔ s'.style.toNat ≤ 4)
    (hcol : ∀ st st', Style.ofField s.style = some st → Style.ofField s'.style = some st' →
      ∀ c r, colorOf p s st c r = colorOf p s' st' c r) : (encodeOn p s).mem = (encodeOn p s').mem := by
  rcases Nat.lt_or_ge p.maxCols s'.pixCols.toNat with hwide | hfit
  · rw [encodeOn_badCols hwide, encodeOn_badCols (hw ▸ hwide)]; exact hm
  cases hst' : Style.ofField s'.style with
  | none =>
    have hst : Style.ofField s.style = none := by
      have hstyle' := (ofField_iff _).1 hst'
      exact (ofField_iff _).2 (by omega)
    rw [encodeOn_badStyle hfit hst', encodeOn_badStyle (hw ▸ hfit) hst]; exact hm
  | some st' =>
    obtain ⟨st, hst⟩ := (exists_ofField_iff s.style).2 (hlegal.2 ((exists_ofField_iff _).1 ⟨st', hst'⟩))
    rw [encodeOn_ok hfit hst', encodeOn_ok (hw ▸ hfit) hst]
    simp only [complete_mem, hm, encodeCells_congr hw (hcol st st' hst hst')]

/-- Settles O19: in unified mode the style reaches no pixel's colour, so ENCODE's stores are the same. -/
theorem unifiedModeIgnoresTheStyle : Obligations.UnifiedModeIgnoresTheStyle := by
  intro p s f hsep hs hf
  refine ⟨encodeOn_mem_congr rfl rfl (iff_of_true hf hs) fun st st' _ _ => ?_, fun st => colorOf_undecorated (.inr hsep)⟩
  exact colorOf_undecorated_congr (.inr hsep) (.inr hsep) rfl rfl rfl

/-! ## The bytes written -/

section Succeeds
variable {p : Config} {s : State} {st : Style} (hfit : s.pixCols.toNat ≤ p.maxCols) (hst : Style.ofField s.style = some st)
include hfit hst

/-- R122: byte `j` of a pixel's triple. -/
theorem encodeOn_pixelByte (hm : Memory.wf s.mem) {c r j : Nat} (hc : c < s.pixCols.toNat) (hr : r < p.rows) (hj : j < 3) :
    (encodeOn p s).byteAt (0x8000 + 3 * pixelIndex p c r s.pixCols.toNat + j) =
      [(colorOf p s st c r).r, (colorOf p s st c r).g, (colorOf p s st c r).b][j] := by
  rw [encodeOn_ok hfit hst]
  exact read_encodeCells hm st hc hr hj

/-- R122: a pixel's triple is red, green and blue of its colour. -/
theorem encodeOn_triple (hm : Memory.wf s.mem) {c r : Nat} (hc : c < s.pixCols.toNat) (hr : r < p.rows) :
    (encodeOn p s).byteAt (0x8000 + 3 * pixelIndex p c r s.pixCols.toNat) = (colorOf p s st c r).r ∧
    (encodeOn p s).byteAt (0x8000 + 3 * pixelIndex p c r s.pixCols.toNat + 1) = (colorOf p s st c r).g ∧
    (encodeOn p s).byteAt (0x8000 + 3 * pixelIndex p c r s.pixCols.toNat + 2) = (colorOf p s st c r).b :=
  ⟨encodeOn_pixelByte hfit hst hm hc hr (j := 0) (by decide), encodeOn_pixelByte hfit hst hm hc hr (j := 1) (by decide),
    encodeOn_pixelByte hfit hst hm hc hr (j := 2) (by decide)⟩

/-- R125: COLOR_LEN after ENCODE. -/
theorem encodeOn_colorLen : (encodeOn p s).colorLen = BitVec.ofNat 16 (3 * s.pixCols.toNat * p.rows) := by
  rw [encodeOn_ok hfit hst]; rfl

/-- R124: ENCODE writes no byte outside the triples of the matrix. -/
theorem encodeOn_byteAt_other {a : Nat} (ha : a < 0x8000 ∨ 0x8000 + 3 * s.pixCols.toNat * p.rows ≤ a) :
    (encodeOn p s).byteAt a = s.byteAt a := by
  rw [encodeOn_ok hfit hst]
  exact read_encodeCells_other s.mem st ha

end Succeeds

/-- Settles O15: each pixel's triple at its index, and the frame by the form of a completion. -/
theorem encodeColoursEveryPixel : Obligations.EncodeColoursEveryPixel := by
  refine ⟨fun s => rfl, ?_⟩
  rintro p s t st hm hfit hst rfl
  refine ⟨fun c r hc hr => ?pixel, ?length, fun a ha => ?bytes, ?rest⟩
  case pixel => exact ⟨_, colorOf_eq p s st c r, encodeOn_triple hfit hst hm hc hr⟩
  case length => rw [encodeOn_colorLen hfit hst, colorLen_toNat hfit]
  case bytes => exact encodeOn_byteAt_other hfit hst ha
  case rest => rw [encodeOn_ok hfit hst]; rfl

/-- Settles O20: no pixel is decorated, so DECO_COLOR reaches no pixel's colour; and every triple is a pixel's. -/
theorem undecoratedEncodeNeverUsesDecoColor : Obligations.UndecoratedEncodeNeverUsesDecoColor := by
  intro p s x hundeco
  have hplain : ∀ {st}, Style.ofField s.style = some st → st = .plain ∨ s.sep = false := by
    refine fun {st} hst => hundeco.imp_left fun hzero => ?_
    rw [hzero] at hst
    exact (Option.some.inj hst).symm
  refine ⟨encodeOn_mem_congr rfl rfl Iff.rfl fun st st' hst hst' => ?_, fun hm hfit hlegal k hk => ?_⟩
  · exact colorOf_undecorated_congr (hplain hst) (hplain hst') rfl rfl rfl
  · obtain ⟨st, hst⟩ := (exists_ofField_iff _).2 hlegal
    obtain ⟨c, r, hc, hr, rfl⟩ := exists_pixelIndex hk
    refine ⟨_, ?_, encodeOn_triple hfit hst hm hc hr⟩
    rw [colorOf_undecorated (hplain hst)]
    exact ite_eq_or_eq _ _ _

/-! ## The operands -/

/-- R124: PIX lies below COLOR_BUF, so ENCODE leaves every column as it is, whether it succeeds or not. -/
theorem encodeOn_pixColumn (p : Config) (s : State) (c : Nat) : (encodeOn p s).pixColumn p c = s.pixColumn p c := by
  rcases encodeOn_cases p s with ⟨-, he⟩ | ⟨-, -, he⟩ | ⟨hfit, st, hst, -⟩
  · rw [he]; exact pixColumn_congr p rfl c
  · rw [he]; exact pixColumn_congr p rfl c
  have hmax := maxCols_le p
  unfold State.pixColumn
  split_ifs with hc
  · refine congrArg (· &&& rowMask p) (readWord_congr fun b _ hb => encodeOn_byteAt_other hfit hst (.inl ?_))
    simp only [pixOffset, regionBase] at hb
    omega
  · rfl

/-- R120: ENCODE leaves its operand registers as they are. -/
theorem encodeOn_registers (p : Config) (s : State) : (encodeOn p s).pixCols = s.pixCols ∧ (encodeOn p s).style = s.style ∧
    (encodeOn p s).sep = s.sep ∧ (encodeOn p s).fgColor = s.fgColor ∧ (encodeOn p s).bgColor = s.bgColor ∧
    (encodeOn p s).decoColor = s.decoColor := by
  rcases encodeOn_cases p s with ⟨-, he⟩ | ⟨-, -, he⟩ | ⟨-, _, -, he⟩ <;> rw [he] <;> exact ⟨rfl, rfl, rfl, rfl, rfl, rfl⟩

/-- Settles O21: a byte of the colour buffer is a byte of some pixel's colour, which the operands determine. -/
theorem encodeIsAPureFunctionOfItsOperands : Obligations.EncodeIsAPureFunctionOfItsOperands := by
  rintro p s s' t t' hm hm' hw hstyle hsep hfg hbg hdeco hpix rfl rfl hok
  have hchecks : ¬ (p.maxCols < s.pixCols.toNat ∨ 5 ≤ s.style.toNat) := by
    rw [← encodeOn_err_iff, hok]; exact Bool.false_ne_true
  have hfit : s.pixCols.toNat ≤ p.maxCols := by omega
  obtain ⟨st, hst⟩ := (exists_ofField_iff s.style).2 (by omega)
  have hfit' : s'.pixCols.toNat ≤ p.maxCols := hw ▸ hfit
  have hst' : Style.ofField s'.style = some st := hstyle ▸ hst
  have hcol : ∀ c r, c < s.pixCols.toNat → colorOf p s st c r = colorOf p s' st c r := fun c r hc =>
    colorOf_congr (hpix c hc) hw hsep hfg hbg hdeco st r
  obtain ⟨hpixCols, hkstyle, hksep, hkfg, hkbg, hkdeco⟩ := encodeOn_registers p s
  refine ⟨fun k hk => ?byte, ?length, hpixCols, hkstyle, hksep, hkfg, hkbg, hkdeco, encodeOn_pixColumn p s⟩
  case length => rw [encodeOn_colorLen hfit hst, encodeOn_colorLen hfit' hst', hw]
  case byte =>
    have hk3 : k / 3 < s.pixCols.toNat * p.rows := Nat.div_lt_of_lt_mul (Nat.mul_assoc 3 _ _ ▸ hk)
    obtain ⟨c, r, hc, hr, hindex⟩ := exists_pixelIndex hk3
    have hj : k % 3 < 3 := Nat.mod_lt _ (by decide)
    have haddr : 0x8000 + k = 0x8000 + 3 * pixelIndex p c r s.pixCols.toNat + k % 3 := by omega
    have haddr' : 0x8000 + k = 0x8000 + 3 * pixelIndex p c r s'.pixCols.toNat + k % 3 := hw ▸ haddr
    calc (encodeOn p s).byteAt (0x8000 + k)
      _ = [(colorOf p s st c r).r, (colorOf p s st c r).g, (colorOf p s st c r).b][k % 3] := by
        rw [haddr]; exact encodeOn_pixelByte hfit hst hm hc hr hj
      _ = [(colorOf p s' st c r).r, (colorOf p s' st c r).g, (colorOf p s' st c r).b][k % 3] := by
        simp only [hcol c r hc]
      _ = (encodeOn p s').byteAt (0x8000 + k) := by
        rw [haddr']; exact (encodeOn_pixelByte hfit' hst' hm' (hw ▸ hc) hr hj).symm

end Sys2Proof.Machine
end

section
/-! PROOFS, family 43_frame.md: the overflow check FRAME makes, and the 16 bytes it builds in BLOCK_IN. -/

namespace Sys2Proof.Machine

/-! ## The check -/

/-- The state a FRAME that passes the check of R141 leaves: the frame in BLOCK_IN (R146), and the completion of R97. -/
def framed (s : State) : State := complete { s with mem := s.mem.writeCells (byteCells 0x0060 (frameBytes s)) }

/-- R140: FRAME when its contents fit. -/
theorem exec_frame_of_fits {s : State} (h : 1 + s.opLen.toNat + s.argLen.toNat ≤ 16) : exec .frame s = .next (framed s) :=
  if_neg (Nat.not_lt.2 h)

/-- R141: FRAME when its contents do not fit. -/
theorem exec_frame_of_overflow {s : State} (h : 16 < 1 + s.opLen.toNat + s.argLen.toNat) :
    exec .frame s = .next (raiseError .frameOverflow s) :=
  if_pos h

/-- Settles O9: FRAME either passes its one check and completes, or fails it and raises FRAME_OVERFLOW. -/
theorem frameOverflowWritesNothing : Obligations.FrameOverflowWritesNothing := by
  refine fun s => ⟨fun hover => exec_frame_of_overflow hover, fun t ht => ?_⟩
  rcases Nat.lt_or_ge 16 (1 + s.opLen.toNat + s.argLen.toNat) with hover | hfits
  · rw [exec_frame_of_overflow hover, Host.Outcome.next.injEq] at ht
    subst ht
    simp [hover]
  · rw [exec_frame_of_fits hfits, Host.Outcome.next.injEq] at ht
    subst ht
    simp [framed, hfits]

/-! ## The bytes of the frame -/

/-- R142: the length byte. -/
theorem frameBytes_lengthByte (s : State) : (frameBytes s)[0]? = some (BitVec.ofNat 8 (s.opCount + s.argCount)) := rfl

/-- R143: opcode byte `i`. -/
theorem frameBytes_opcode {s : State} {i : Nat} (hi : i < s.opCount) : (frameBytes s)[1 + i]? = some (s.opcodeByte i) := by
  simp [frameBytes, Nat.add_comm 1, List.getElem?_append, hi]

/-- R144: argument byte `i` comes after the length byte and all opcode bytes. -/
theorem frameBytes_arg {s : State} {i : Nat} (hi : i < s.argCount) :
    (frameBytes s)[1 + s.opCount + i]? = some (s.argByte i) := by
  have hhead : ([BitVec.ofNat 8 (s.opCount + s.argCount)] ++ (List.range s.opCount).map s.opcodeByte).length = 1 + s.opCount := by
    simp [Nat.add_comm]
  rw [frameBytes, List.append_assoc, List.getElem?_append_right (by omega), hhead, Nat.add_sub_cancel_left]
  simp [List.getElem?_append, hi]

/-- R145: from the contents' end to byte 15 the frame is padding. -/
theorem frameBytes_padding {s : State} {i : Nat} (hi : s.opCount + s.argCount + 1 ≤ i) (hi' : i ≤ 15) :
    (frameBytes s)[i]? = some 0x00#8 := by
  have hcontents : ([BitVec.ofNat 8 (s.opCount + s.argCount)] ++ (List.range s.opCount).map s.opcodeByte
      ++ (List.range s.argCount).map s.argByte).length = s.opCount + s.argCount + 1 := by simp [Nat.add_right_comm]
  rw [frameBytes, List.getElem?_append_right (by omega), hcontents]
  exact List.getElem?_replicate_of_lt (by omega)

/-! ## BLOCK_IN after FRAME -/

/-- R146: byte `i` of BLOCK_IN is byte `i` of the frame. -/
theorem framed_byteAt {s : State} (hm : Memory.wf s.mem) {i : Nat} {b : Byte} (h : (frameBytes s)[i]? = some b) :
    (framed s).byteAt (0x0060 + i) = b := by
  obtain ⟨hi, rfl⟩ := List.getElem?_eq_some_iff.1 h
  exact read_writeCells_byteCells hm 0x0060 (frameBytes s) hi

/-- R146: FRAME writes no byte outside BLOCK_IN. -/
theorem framed_byteAt_other {s : State} (hfits : 1 + s.opLen.toNat + s.argLen.toNat ≤ 16) {a : Nat}
    (ha : a < 0x0060 ∨ 0x0070 ≤ a) : (framed s).byteAt a = s.byteAt a := by
  refine read_writeCells_byteCells_other s.mem 0x0060 (frameBytes s) ?_
  rwa [frameBytes_length s hfits]

/-- Settles O8: each byte of BLOCK_IN by its place in `frameBytes`, and the frame by the form of a completion. -/
theorem frameBuildsTheBlock : Obligations.FrameBuildsTheBlock := by
  refine fun s hm hfits => ⟨framed s, exec_frame_of_fits hfits, ?length, fun i hi => ?opcode, fun i hi => ?args,
    fun i hi hi' => ?padding, fun a ha => framed_byteAt_other hfits ha, rfl⟩
  case length =>
    have hlt : s.opLen.toNat + s.argLen.toNat < 2 ^ 8 := by omega
    rw [framed_byteAt hm (frameBytes_lengthByte s)]
    exact Nat.mod_eq_of_lt hlt
  case opcode =>
    rw [Nat.add_assoc 0x0060]
    exact framed_byteAt hm (frameBytes_opcode hi)
  case args =>
    rw [Nat.add_assoc 0x0060, Nat.add_assoc 0x0060]
    exact framed_byteAt hm (frameBytes_arg hi)
  case padding => exact framed_byteAt hm (frameBytes_padding hi hi')

end Sys2Proof.Machine
end

section
/-! PROOFS, family 44_cipher.md: the bytes SEAL writes to BLOCK_OUT and all that it leaves alone, and the decryption that gives
BLOCK_IN back. -/

namespace Sys2Proof.Machine

/-! ## The bytes of BLOCK_OUT -/

/-- R155: SEAL has one outcome, the completion on the device's configuration. -/
theorem exec_sealBlock_eq_next {s t : State} : exec .sealBlock s = .next t ↔ sealOn Config.device s = t := by
  rw [show exec .sealBlock s = .next (sealOn Config.device s) from rfl, Host.Outcome.next.injEq]

/-- R150: SEAL writes no byte outside BLOCK_OUT. -/
theorem sealOn_byteAt_other (p : Config) (s : State) {a : Nat} (ha : a < 0x0070 ∨ 0x0080 ≤ a) :
    (sealOn p s).byteAt a = s.byteAt a := by
  refine read_writeCells_byteCells_other s.mem 0x0070 (sealedBlock p s.blockIn).toList ?_
  rwa [Vector.length_toList]

/-- Settles O10: byte by byte what SEAL stores, and the frame by the form of a completion. -/
theorem sealEncryptsTheBlock : Obligations.SealEncryptsTheBlock := fun s hm =>
  ⟨sealOn Config.device s, exec_sealBlock_eq_next.2 rfl, sealOn_read s hm Config.device,
    fun _ ha => sealOn_byteAt_other Config.device s ha, rfl⟩

/-! ## The decryption -/

/-- R11, R154: at its own key the cipher is the configuration's permutation of blocks. -/
theorem sealedBlock_eq_atKey (p : Config) (b : Block) : sealedBlock p b = p.cipherKey.atKey b := if_pos rfl

/-- R154: the decryption D of the configuration's cipher at its key. -/
def unsealedBlock (p : Config) (b : Block) : Block := p.cipherKey.atKey.symm b

/-- R154: D(CIPHER(KEY, P)) = P. -/
@[simp] theorem unsealedBlock_sealedBlock (p : Config) (b : Block) : unsealedBlock p (sealedBlock p b) = b := by
  rw [sealedBlock_eq_atKey]
  exact p.cipherKey.atKey.symm_apply_apply b

/-- R154: distinct blocks are sealed to distinct blocks, since each has its decryption. -/
theorem sealedBlock_injective (p : Config) : Function.Injective (sealedBlock p) :=
  Function.LeftInverse.injective (unsealedBlock_sealedBlock p)

/-- R152: BLOCK_OUT after SEAL is a function of BLOCK_IN alone. -/
theorem blockOut_of_exec_sealBlock {s t : State} (hm : Memory.wf s.mem) (h : exec .sealBlock s = .next t) :
    t.blockOut = sealedBlock Config.device s.blockIn := by
  rw [← exec_sealBlock_eq_next.1 h, sealOn_blockOut s hm]

/-- Settles O11: each BLOCK_OUT is the sealed BLOCK_IN, sealing is injective, and the decryption is its left inverse. -/
theorem sealIsInjectiveAndMemoryless : Obligations.SealIsInjectiveAndMemoryless := by
  refine ⟨fun s s' t t' hm hm' ht ht' => ?injective, unsealedBlock Config.device, fun s t hm ht => ?decrypts⟩
  case injective =>
    rw [blockOut_of_exec_sealBlock hm ht, blockOut_of_exec_sealBlock hm' ht']
    exact (sealedBlock_injective Config.device).eq_iff
  case decrypts =>
    rw [blockOut_of_exec_sealBlock hm ht]
    exact unsealedBlock_sealedBlock Config.device s.blockIn

end Sys2Proof.Machine
end

section
/-! PROOFS, family 60_exceptions.md: the level of `irq`, what raises it and what lowers it. -/

namespace Sys2Proof.Machine

/-! ## The level of `irq` -/

/-- R166: `irq` at the level of its enable while DONE is set. -/
theorem irq_of_done {s : State} (h : s.status.done = true) : s.irq = s.irqEn := by
  rw [State.irq, h, Bool.true_and]

/-- R166: `irq` is low while DONE is clear. -/
theorem irq_of_not_done {s : State} (h : s.status.done = false) : s.irq = false := by
  rw [State.irq, h, Bool.false_and]

/-! ## The events that move it -/

/-- R166: a completion, successful or failed, sets DONE and keeps IRQ_EN. -/
theorem exec_irq {i : Instr} {s t : State} (hi : i ≠ .clear) (h : exec i s = .next t) : t.irq = s.irqEn := by
  obtain ⟨u, hu, ⟨hclear, -⟩ | ⟨-, hrun⟩⟩ := exec_next i s
  · exact absurd hclear hi
  obtain rfl : u = t := by simpa [hu] using h
  rcases hrun with ⟨e, rfl⟩ | ⟨mem, pixCols, colorLen, rfl⟩
  · exact irq_of_done rfl
  · exact irq_of_done rfl

/-- R96, R100, R166: a command issued while IDLE clears DONE, by CLEAR's own effect or by its acceptance. -/
theorem hostWrite_cmd_done {s t : State} {v : Word} (hp : s.phase = .idle) (h : hostWrite s cmdOffset v = .next t) :
    t.status.done = false := by
  by_cases hv : decode v = .legal .clear
  · rw [hostWrite_cmd_clear hp hv, Host.Outcome.next.injEq] at h
    rw [← h]; rfl
  · obtain ⟨d, -, hwrite⟩ := hostWrite_cmd_accepts hp hv
    rw [hwrite, Host.Outcome.next.injEq] at h
    rw [← h]; rfl

/-- R25, R166: a write to CTRL while IDLE sets IRQ_EN and keeps DONE. -/
theorem hostWrite_ctrl_irq {s t : State} {v : Word} (hp : s.phase = .idle) (h : hostWrite s 0x0008 v = .next t) :
    t.irq = (s.status.done && v.getLsbD 0) := by
  obtain ⟨⟨u, hu, hset, -⟩, -⟩ := registersReadBackWhatTheyStore s v hp
  obtain rfl : u = t := by simpa [hu] using h
  rw [hset]; rfl

/-- Settles O37: the definition of `irq`, then one event after the other by what it does to DONE and IRQ_EN. -/
theorem interruptFollowsDoneAndEnable : Obligations.InterruptFollowsDoneAndEnable := by
  refine ⟨fun s => rfl, fun i s t hi h => ?completion, fun s t h => ?clear, fun s t v hp h => ?cmd, fun s t v hp h => ?ctrl,
    fun s => ?reset, fun s => ?endOfInit⟩
  case completion => exact exec_irq hi h
  case clear => cases h; exact irq_of_not_done rfl
  case cmd => exact irq_of_not_done (hostWrite_cmd_done hp h)
  case ctrl => exact hostWrite_ctrl_irq hp h
  case reset => exact irq_of_not_done rfl
  case endOfInit => exact irq_of_not_done rfl

end Sys2Proof.Machine
end

section
/-! PROOFS, family 70_reset_and_hazards.md: the pulse of reset, the engine's turn that ends INIT, and the run of INIT. -/

namespace Sys2Proof.Machine

/-! ## The pulse of reset -/

/-- R27, R180: STATUS reads BUSY and INIT, and nothing else, in INIT with every stored field 0. -/
theorem statusWord_of_init {s : State} (hp : s.phase = .init) (hs : s.status = Status.zero) : s.statusWord = 0x00000011#32 := by
  have hbusy : s.busy = true := by simp [State.busy, hp]
  have hinit : s.initBit = true := by simp [State.initBit, hp]
  rw [State.statusWord, hbusy, hinit, hs]
  decide

/-- R55, R180: reset gives every operand and result register its reset value, and the host's moving on keeps it. -/
theorem registersAtReset_assertReset (s : State) : registersAtReset (assertReset s).hostAdvance := registersAtReset_reset

/-- R180: the step in which the reset input is pulsed is reset, in every phase, the host being past the pulse. -/
theorem step_pulseRst {s : State} (h : s.hostRuns .pulseRst) :
    ∃ n, s.HostTurn n ∧ step s = .next (assertReset { s with wait := n }).hostAdvance := by
  obtain ⟨n, hn, hstep⟩ := hostRuns_turn h
  exact ⟨n, hn, hstep⟩

/-- Settles O39: the pulse's step is reset, which leaves nothing of the phase before it. -/
theorem resetAbandonsTheRunningCommand : Obligations.ResetAbandonsTheRunningCommand := by
  intro s h
  obtain ⟨n, -, hstep⟩ := step_pulseRst h
  exact ⟨_, hstep, registersAtReset_assertReset _, statusWord_of_init rfl rfl, rfl, irq_of_not_done rfl, rfl⟩

/-! ## The end of INIT -/

/-- R181: the engine's turn in INIT. -/
theorem engineStep_init {s : State} (hp : s.phase = .init) : engineStep s = .next (endInit s) := by
  simp only [engineStep, hp]

/-- R16, R181: in INIT with its latency used up the step is the engine's, and it ends INIT. -/
theorem step_endInit {s : State} (hp : s.phase = .init) (hw : s.wait = 0) : step s = .next (endInit s) := by
  rcases step_eq s with ⟨hidle, -⟩ | ⟨-, -, hstep⟩ | ⟨-, n, hn, -⟩
  · exact absurd (hp.symm.trans hidle) (by simp)
  · exact hstep.trans (engineStep_init hp)
  · omega

/-- R55, R181: every byte is 0x00 when INIT ends. -/
theorem byteAt_endInit (s : State) (a : Nat) : (endInit s).byteAt a = 0x00#8 := by
  rw [byteAt_eq, endInit_mem, Memory.read_nil]

/-- R181: STATUS reads BUSYWR alone when INIT ends. -/
theorem statusWord_endInit (s : State) :
    (endInit s).statusWord = if s.status.busyWr then 0x00000008#32 else 0x00000000#32 := by
  have hbusy : (endInit s).busy = false := by simp [State.busy]
  have hinit : (endInit s).initBit = false := by simp [State.initBit]
  rw [State.statusWord, hbusy, hinit, endInit_status]
  cases s.status.busyWr <;> decide

/-- Settles O40: by what the end of INIT leaves in each field. -/
theorem initEndsWithEverythingCleared : Obligations.InitEndsWithEverythingCleared := fun s hp hw =>
  ⟨endInit s, step_endInit hp hw, rfl, byteAt_endInit s, statusWord_endInit s, rfl⟩

/-! ## The run of INIT -/

/-- R68, R181: the run of INIT, when it goes on, ends it on the first state, but for BUSYWR, the schedule and the host, which the
host's steps before it may change. -/
theorem run_init {s t : State} (hp : s.phase = .init) (hr : neverResets s)
    (h : Sys2Proof.core.run (s.wait + 1) s = .next t) :
    t = { endInit s with
      status := { Status.zero with busyWr := t.status.busyWr }
      wait := 0
      draws := t.draws
      host := t.host } := by
  obtain ⟨w, hrun, hstep⟩ := run_split _ h
  -- `w`: the state in which the engine is due
  obtain ⟨hw, -⟩ := run_while_running s.wait (by simp [hp]) le_rfl hr hrun
  rw [Nat.sub_self] at hw
  have hphase : w.phase = .init := by rw [hw]; exact hp
  have hwait : w.wait = 0 := by rw [hw]
  rw [step_endInit hphase hwait, Host.Outcome.next.injEq] at hstep
  rw [← hstep, hw]
  rfl

/-- Settles O50: the host's steps keep the phase and the registers, so INIT ends as it would on the first state. -/
theorem initReachesIdle : Obligations.InitReachesIdle := by
  intro s hp hr
  refine ⟨fun t h => ?_, run_progress _ (by simp [hp]) le_rfl hr⟩
  rw [run_init hp hr h]
  exact ⟨rfl, byteAt_endInit s, id⟩

end Sys2Proof.Machine
end
